-- ==== Sys2Proof/Word.lean ====
section
/-! DEFINITION. The two word types of the block: a byte (R7, R50) and a register of 32 bits (R20, R28). -/

namespace Sys2Proof

/-- One pixel sample, one unit of the token stream (Table R7, BYTE). -/
abbrev Byte := BitVec 8

/-- A register: all host-visible registers and all working registers but PHASE and VAL are 32 bits wide
(R20, Table R28). -/
abbrev Word := BitVec 32

end Sys2Proof
end

