-- ==== Sys2Proof/Machine/RunDetector.lean ====
section
/-! DEFINITION. The run detector (41_run_detector.md), a pure function of the row's bytes from the position on. A row
`row` and a position `p` are given as `row.drop p`: RunLen never looks to the left of `p` (R143). -/

namespace Sys2Proof.Machine

/-- How many bytes at the front equal `v`. -/
def leadCount (v : Byte) : List Byte → Nat
  | [] => 0
  | b :: rest => if b = v then leadCount v rest + 1 else 0

/-- `RunLen(row, p)` of R140 for `row.drop p`: the length of the run of equal bytes at the front, bounded by the row's
end (R142). -/
def runLen : List Byte → Nat
  | [] => 0
  | v :: rest => leadCount v rest + 1

end Sys2Proof.Machine
end

