-- ==== Sys2Proof/Syntax.lean ====
section
/-! DEFINITION. The fifteen operations of spec/opcode_table.json as one inductive, and the forms an operation is
encoded in (the token stream, the PHASE code with its guard, the command word, the reset line: 30_encoding.md). -/

namespace Sys2Proof

/-- The registers H_WRITE_CFG writes (R182): numbers 2, 3 and 4. -/
inductive CfgReg where
  | width
  | imageSize
  | outCap
deriving DecidableEq, Repr

/-- The operations of R15: five tokens, six micro-operations, four host commands. -/
inductive Instr where
  /-- T_EOL, the marker `00 00` (R83). -/
  | tEol
  /-- T_EOB, the marker `00 01` (R84). -/
  | tEob
  /-- T_DELTA, the reserved header `00 02` (R86). -/
  | tDelta
  /-- T_ABS, `00 n` and `n` payload bytes; `n` is the payload's length (R85). -/
  | tAbs (payload : List Byte)
  /-- T_REPEAT, `count value` (R82). -/
  | tRepeat (count value : Byte)
  /-- U_DETECT (R120). -/
  | uDetect
  /-- U_EOL (R121). -/
  | uEol
  /-- U_REPEAT (R151). -/
  | uRepeat
  /-- U_ABS (R166). -/
  | uAbs
  /-- U_SHORT (R167). -/
  | uShort
  /-- U_FIN (R122). -/
  | uFin
  /-- H_START, a write of CTRL with data bit 0 = 1; `ignored` is data bits [31:1] (R180). -/
  | hStart (ignored : BitVec 31)
  /-- H_WRITE_CFG, a write of WIDTH, IMAGE_SIZE or OUT_CAP (R182). -/
  | hWriteCfg (reg : CfgReg) (data : Word)
  /-- H_READ, a read of register 0 to 7 (R183). -/
  | hRead (reg : BitVec 3)
  /-- H_RESET, the reset input asserted (R184). -/
  | hReset
deriving DecidableEq, Repr

/-- The guard column of Table R97, as it stands in a state of the core. -/
inductive Guard where
  /-- `P < STRIDE`. -/
  | pBelowStride
  /-- `P = STRIDE`. -/
  | pAtStride
  /-- `N ≥ 3`. -/
  | nAtLeast3
  /-- `N ≤ 2`. -/
  | nAtMost2
  /-- No guard of the table: the phases that need none, and SCAN with `P > STRIDE`. -/
  | none
deriving DecidableEq, Repr

/-- What an operation is read from (30_encoding.md sections 1 and 6). -/
inductive Encoded where
  /-- Bytes of a token stream (R80). -/
  | stream (bytes : List Byte)
  /-- The PHASE code and the guard that holds (R97). -/
  | phase (code : BitVec 3) (guard : Guard)
  /-- A register access drawn as a 36-bit command word (R96). -/
  | command (word : BitVec 36)
  /-- The level of the reset input (R96). -/
  | resetLine (asserted : Bool)
deriving DecidableEq, Repr

/-- Why a decoder gives no operation, by name. -/
inductive DecodeError where
  /-- The token stream ends inside a token (R92, "truncated"). -/
  | truncated
  /-- A write that selects no command: CTRL with bit 0 = 0, or registers 1, 5, 6, 7 (R96). -/
  | noCommand
  /-- PHASE is IDLE, DONE or ERROR: no micro-operation is enabled, the core is quiescent (R97). -/
  | quiescent
  /-- PHASE code 7, or a phase with none of its guards: no row of Table R97. -/
  | noRow
  /-- The reset input is not asserted. -/
  | resetIdle
deriving DecidableEq, Repr

end Sys2Proof
end

