-- ==== Sys2Proof/WellFormed.lean ====
section
/-! DEFINITION. Which operations have an encoding: the operand ranges of R82 and R85. -/

namespace Sys2Proof

/-- "count in 1..255" (R82) and "n in 3..255" (R85); every other operand may take every value its type has. -/
def Instr.wf : Instr → Bool
  | .tRepeat count _ => count != 0
  | .tAbs payload => 3 ≤ payload.length && payload.length ≤ 255
  | .tEol => true
  | .tEob => true
  | .tDelta => true
  | .uDetect => true
  | .uEol => true
  | .uRepeat => true
  | .uAbs => true
  | .uShort => true
  | .uFin => true
  | .hStart _ => true
  | .hWriteCfg _ _ => true
  | .hRead _ => true
  | .hReset => true

end Sys2Proof
end

