-- ==== Sys2Proof/Decode.lean ====
section
/-! DEFINITION. The decoders of the token stream (R80-R89), of the core's selection (R97), of the host's command words
and of the reset line (R96), each total and rejecting by name; then the encoder; then the reference decoder of whole
streams (R92). -/

namespace Sys2Proof

/-- The number of payload and pad bytes of an absolute token of `n` bytes: `n` rounded up to even (R85, R88). -/
def paddedLength (n : Nat) : Nat := n + n % 2

/-- One token from the front of a stream, with the rest of the stream. The tests stand in the order of R89; the pad
byte is skipped, not looked at (R92; log 16). -/
def decodeToken : List Byte → Except DecodeError (Instr × List Byte)
  | a :: b :: rest =>
    if a ≠ 0 then .ok (.tRepeat a b, rest)
    else if b = 0 then .ok (.tEol, rest)
    else if b = 1 then .ok (.tEob, rest)
    else if b = 2 then .ok (.tDelta, rest)
    else if rest.length < paddedLength b.toNat then .error .truncated
    else .ok (.tAbs (rest.take b.toNat), rest.drop (paddedLength b.toNat))
  | _ => .error .truncated

/-- Table R97: the micro-operation a PHASE code and a guard select. Codes 0, 5 and 6 are IDLE, DONE and ERROR. -/
def decodePhase (code : BitVec 3) (guard : Guard) : Except DecodeError Instr :=
  if code = 1 then
    match guard with
    | .pBelowStride => .ok .uDetect
    | .pAtStride => .ok .uEol
    | _ => .error .noRow
  else if code = 2 then .ok .uRepeat
  else if code = 3 then
    match guard with
    | .nAtLeast3 => .ok .uAbs
    | .nAtMost2 => .ok .uShort
    | _ => .error .noRow
  else if code = 4 then .ok .uFin
  else if code = 7 then .error .noRow
  else .error .quiescent

/-- Table R96: bit 35 is 1 for a write, bits [34:32] the register number, bits [31:0] the data. The data bits of a read
are not used (log 16). -/
def decodeCommand (word : BitVec 36) : Except DecodeError Instr :=
  let reg := word.extractLsb' 32 3
  let data := word.extractLsb' 0 32
  if word.extractLsb' 35 1 = 0 then .ok (.hRead reg)
  else if reg = 0 ∧ data.extractLsb' 0 1 = 1 then .ok (.hStart (data.extractLsb' 1 31))
  else if reg = 2 then .ok (.hWriteCfg .width data)
  else if reg = 3 then .ok (.hWriteCfg .imageSize data)
  else if reg = 4 then .ok (.hWriteCfg .outCap data)
  else .error .noCommand

/-- Any encoded form: the operation, and what is left of a token stream (nothing for the other forms). -/
def decode : Encoded → Except DecodeError (Instr × List Byte)
  | .stream bytes => decodeToken bytes
  | .phase code guard => (decodePhase code guard).map (fun i => (i, []))
  | .command word => (decodeCommand word).map (fun i => (i, []))
  | .resetLine true => .ok (.hReset, [])
  | .resetLine false => .error .resetIdle

/-- The register number of a configuration register (Table R96). -/
def CfgReg.number : CfgReg → BitVec 3
  | .width => 2
  | .imageSize => 3
  | .outCap => 4

/-- A command word from its three fields (R96). -/
def commandWord (rw : BitVec 1) (reg : BitVec 3) (data : Word) : BitVec 36 := rw ++ reg ++ data

/-- The pad byte, present exactly when the payload's length is odd (R85, R163). -/
def padBytes (n : Nat) : List Byte := if n % 2 = 1 then [0] else []

/-- The bytes of T_REPEAT (format PAIR of Table R81). -/
def repeatBytes (count value : Byte) : List Byte := [count, value]

/-- The bytes of T_ABS (format ABS of Table R81): header, payload, pad. -/
def absBytes (payload : List Byte) : List Byte :=
  [0, BitVec.ofNat 8 payload.length] ++ payload ++ padBytes payload.length

/-- The bytes of T_EOL (R83). -/
def eolBytes : List Byte := [0, 0]

/-- The bytes of T_EOB (R84). -/
def eobBytes : List Byte := [0, 1]

/-- The encoded form of an operation, from Tables R81, R96 and R97. -/
def encode : Instr → Encoded
  | .tEol => .stream eolBytes
  | .tEob => .stream eobBytes
  | .tDelta => .stream [0, 2]
  | .tAbs payload => .stream (absBytes payload)
  | .tRepeat count value => .stream (repeatBytes count value)
  | .uDetect => .phase 1 .pBelowStride
  | .uEol => .phase 1 .pAtStride
  | .uRepeat => .phase 2 .none
  | .uAbs => .phase 3 .nAtLeast3
  | .uShort => .phase 3 .nAtMost2
  | .uFin => .phase 4 .none
  | .hStart ignored => .command (commandWord 1 0 (ignored ++ (1 : BitVec 1)))
  | .hWriteCfg reg data => .command (commandWord 1 reg.number data)
  | .hRead reg => .command (commandWord 0 reg 0)
  | .hReset => .resetLine true

/-- The loop of Pseudocode R92 from a stream, the bytes decoded so far and the markers met so far; `fuel` bounds the
number of tokens. `none` where R92 refuses: a truncated stream, a delta, bytes after end-of-bitmap. -/
def decodeLoop : Nat → List Byte → List Byte → Nat → Option (List Byte × Nat)
  | 0, _, _, _ => none
  | fuel + 1, s, out, markers =>
    match decodeToken s with
    | .ok (.tRepeat a b, rest) => decodeLoop fuel rest (out ++ List.replicate a.toNat b) markers
    | .ok (.tAbs payload, rest) => decodeLoop fuel rest (out ++ payload) markers
    | .ok (.tEol, rest) => decodeLoop fuel rest out (markers + 1)
    | .ok (.tEob, rest) => if rest = [] then some (out, markers + 1) else none
    | _ => none

/-- `Decode(s)` of R92: the decoded bytes and the number of markers met. -/
def decodeStream (s : List Byte) : Option (List Byte × Nat) := decodeLoop (s.length + 1) s [] 0

/-- The bytes of the token whose header is the 16-bit pattern `w` (header byte 0 in bits [15:8], R81), every payload
and pad byte 0. -/
def tableTokenBytes (w : Nat) : List Byte :=
  let a : Byte := BitVec.ofNat 8 (w / 256)
  let b : Byte := BitVec.ofNat 8 w
  [a, b] ++ (if a = 0 ∧ 3 ≤ b.toNat then List.replicate (paddedLength b.toNat) 0 else [])

/-- The guard drawn above a 3-bit PHASE code in the table's words: 0 stands for the first guard Table R97 gives the
phase (log 18). -/
def firstGuard (code : BitVec 3) : Guard :=
  if code = 1 then .pBelowStride else if code = 3 then .nAtLeast3 else .none

/-- Which encoded form a word of the opcode table is: 16 bits a token header, 36 (40 in whole bytes) a command word, 3 (8
in whole bytes) a PHASE code, 1 the reset line (R98; log 18). -/
def tableWord (nbits w : Nat) : Option Encoded :=
  if nbits = 16 then (if w < 2 ^ 16 then some (.stream (tableTokenBytes w)) else none)
  else if nbits = 36 ∨ nbits = 40 then (if w < 2 ^ 36 then some (.command (BitVec.ofNat 36 w)) else none)
  else if nbits = 3 ∨ nbits = 8 then
    (if w < 8 then some (.phase (BitVec.ofNat 3 w) (firstGuard (BitVec.ofNat 3 w))) else none)
  else if nbits = 1 then some (.resetLine (w == 1))
  else none

/-- The instruction the decoder reads from a word numbered as spec/opcode_table.json numbers it. -/
def decodeTableWord (nbits w : Nat) : Option Instr :=
  match tableWord nbits w with
  | some e =>
    match decode e with
    | .ok (i, _) => some i
    | .error _ => none
  | none => none

end Sys2Proof
end

