-- ==== Sys2Proof/Config.lean ====
section
/-! DEFINITION. What the spec leaves open: the free values and the three platform parameters of R8. None has a body
a proof could read, so a statement that mentions one holds for every value of it. -/

namespace Sys2Proof

/-- FREE VALUE (log 3, log 6): a 32-bit register that "holds no value" (R30, U9), or a natural number that does not
fit its register. Applied to the counter `State.fresh`. -/
opaque Config.freeWord : Nat → Word

/-- FREE VALUE (log 3, log 14): the register VAL outside RUN (R30), and what a host read of OUT returns while
BUSY = 1 (U4). Applied to the counter `State.fresh`. -/
opaque Config.freeByte : Nat → Byte

/-- OPEN (R8, D12, U11; log 20): where `PIX[0]` stands in the platform's memory. No rule reads it. -/
opaque Config.srcBase : Nat

/-- OPEN (R8, D12, U11; log 20): where `OUT[0]` stands in the platform's memory. No rule reads it. -/
opaque Config.dstBase : Nat

/-- OPEN (R8, D12, U11; log 20): where register 0 stands on the platform's bus. No rule reads it. -/
opaque Config.regBase : Nat

/-- The bus address of register `k`, `REG_BASE + 4·k` (10_state.md section 2, D12). -/
def Config.regAddress (k : BitVec 3) : Nat := Config.regBase + 4 * k.toNat

end Sys2Proof
end

