-- ==== Sys2Proof/Machine/State.lean ====
section
/-! DEFINITION. The state as plain data, the reasons a step can stop, and the state after reset. -/

namespace Sys2Proof.Machine

/-- A buffer by zero-based byte index (R34, R59): the bytes that differ from what an unlisted byte reads as, addresses
strictly rising (`Memory.wf` in Machine/Ops.lean). -/
abbrev Memory := List Host.Cell

/-- The seven values of PHASE (Table R32); code 7 is never taken. -/
inductive Phase where
  | idle
  | scan
  | run
  | lit
  | fin
  | done
  | error
deriving DecidableEq, Repr

/-- What a turn is for, where the reset input is not asserted (R13, R189; log 1). -/
inductive Move where
  /-- The core takes a step, if one is enabled. -/
  | core
  /-- The host makes the register access of a command word (R96). -/
  | command (word : BitVec 36)
  /-- The reader decodes one token (log 2). -/
  | reader
  /-- The host stores a byte of PIX (Table R189; log 14). -/
  | storePix (index : Word) (value : Byte)
  /-- The host stores a byte of OUT (Table R189; log 14). -/
  | storeOut (index : Word) (value : Byte)
  /-- The host reads a byte of PIX (Table R189; log 14). -/
  | loadPix (index : Word)
  /-- The host reads a byte of OUT (Table R189; log 14). -/
  | loadOut (index : Word)
deriving DecidableEq, Repr

/-- One boundary between two steps: the level of the reset input there, and whose move it is. -/
structure Turn where
  reset : Bool
  move : Move
deriving DecidableEq, Repr

/-- The reference decoder of R92, outside the hardware (R5, R92; log 2). -/
structure Reader where
  /-- The part of the stream not yet decoded, `s[i ..]`. -/
  rest : List Byte
  /-- The bytes decoded so far. -/
  out : List Byte
  /-- The markers met so far. -/
  markers : Nat
  /-- The end-of-bitmap marker has been met: `Decode` has returned. -/
  ended : Bool
deriving DecidableEq, Repr

/-- The state of R20, and after it the model's own fields. CTRL holds no state (R21); STATUS is `phase` and `errCode`
(R33; log 10). -/
structure State where
  /-- Register 2, WIDTH (R23). -/
  width : Word
  /-- Register 3, IMAGE_SIZE (R24). -/
  imageSize : Word
  /-- Register 4, OUT_CAP (R25). -/
  outCap : Word
  /-- Register 5, ENC_SIZE (R26). -/
  encSize : Word
  /-- STATUS bits [7:4], ERR_CODE (R22, R201). -/
  errCode : BitVec 4
  /-- PHASE (R32). -/
  phase : Phase
  /-- STRIDE, the row pitch in bytes (Table R28). -/
  stride : Word
  /-- ROWOFF, the offset in PIX of the current row (Table R28). -/
  rowoff : Word
  /-- P, the position inside the row (Table R28). -/
  p : Word
  /-- OUTPTR, the number of bytes appended to OUT (Table R28). -/
  outptr : Word
  /-- RL, the bytes of the current run not yet emitted (Table R28). -/
  rl : Word
  /-- VAL, the current run's byte (Table R28). -/
  val : Byte
  /-- N, the bytes of the current literal stretch not yet emitted (Table R28). -/
  n : Word
  /-- The pixel buffer PIX (R34). -/
  pix : Memory
  /-- The output buffer OUT (R34). -/
  out : Memory
  /-- MODEL'S OWN: what the host can rely on in OUT. `none`: every byte. `some spans`: a reset has cut a launch short, and
  only the bytes stored since count, given as first index and length; "The host must treat the whole of OUT as undefined
  after such a reset" (R231, U7; log 23). -/
  settled : Option (List (Nat × Nat))
  /-- MODEL'S OWN: the counter the free values are drawn at (log 19). -/
  fresh : Nat
  /-- MODEL'S OWN: the value the host's last read returned (R183; log 11). -/
  rdata : Word
  /-- MODEL'S OWN: the turns to come, oldest first (log 1). -/
  turns : List Turn
  /-- MODEL'S OWN: the reference decoder (log 2). -/
  reader : Reader
deriving DecidableEq, Repr

/-- Reasons the machine stops. Both arise only in states no run from reset reaches. -/
inductive Fault where
  /-- Raised by U_FIN when OUTPTR < 2: the index `OUTPTR − 2` does not exist. R248 makes it unreachable. Safe (log 7). -/
  | noSuchOutIndex
  /-- Raised by the core's turn when PHASE is SCAN and P > STRIDE, so that no row of Table R97 applies. R37 makes it
  unreachable. Safe (log 8). -/
  | stuck
deriving DecidableEq, Repr

/-- Reasons an operation has no meaning where it stands. -/
inductive Refusal where
  /-- Raised by an arm of `exec` whose instruction is not modelled yet; no arm is. Safe. -/
  | notModelled (mnemonic : String)
  /-- Raised by a micro-operation whose row of Table R97 (phase and guard) does not hold: the core never selects it
  there. Safe (log 9). -/
  | notSelected
  /-- Raised by T_DELTA: "The reference decoder of rule R92 refuses it" (R86). Safe. -/
  | deltaToken
  /-- Raised by the reader's tokens when bytes follow the end-of-bitmap marker (R92, "trailing bytes"). Safe. -/
  | afterEndOfBitmap
  /-- Raised by the reader's turn when the stream is cut short (R92, "truncated"). Safe. -/
  | truncatedStream
  /-- Raised by a host store to PIX while BUSY = 1, a violated host duty (R236, U3: "refuse"). Safe (log 14). -/
  | pixWrittenWhileBusy
  /-- Raised by a host store to OUT while BUSY = 1, a violated host duty (R238, U4: "refuse"). Safe (log 14). -/
  | outWrittenWhileBusy
deriving DecidableEq, Repr

/-- The state after reset, which is also the power-on state (R36, R230). The seven working registers have no reset
value in the spec; they are 0 here (DESIGN CHOICE, log 4), as are the unlisted bytes of the buffers (log 5) and the
model's own fields. -/
def State.reset : State where
  width := 0
  imageSize := 0
  outCap := 0
  encSize := 0
  errCode := 0
  phase := .idle
  stride := 0
  rowoff := 0
  p := 0
  outptr := 0
  rl := 0
  val := 0
  n := 0
  pix := []
  out := []
  settled := none
  fresh := 0
  rdata := 0
  turns := []
  reader := { rest := [], out := [], markers := 0, ended := false }

end Sys2Proof.Machine
end

