-- ==== Sys2Proof/Machine/Ops.lean ====
section
/-! DEFINITION. The named operations over memory and registers: reading and writing a byte of a buffer, storing a
natural number in a register, appending to OUT, moving PHASE, error entry and leaving the error state. -/

namespace Sys2Proof.Machine

/-- The byte at index `a`; an unlisted byte reads as 0 (log 5). A read has no side effect (R53). -/
def Memory.read (m : Memory) (a : Nat) : Byte :=
  match m with
  | [] => 0
  | (b, v) :: rest => if a < b then 0 else if a = b then v else Memory.read rest a

/-- `MemWrite(a, 1, v)` (R11): a plain store of one byte (R54). The canonical form is kept: a 0 is not listed. -/
def Memory.write (m : Memory) (a : Nat) (v : Byte) : Memory :=
  match m with
  | [] => if v = 0 then [] else [(a, v)]
  | (b, w) :: rest =>
    if a < b then (if v = 0 then (b, w) :: rest else (a, v) :: (b, w) :: rest)
    else if a = b then (if v = 0 then rest else (a, v) :: rest)
    else (b, w) :: Memory.write rest a v

/-- The stores of a byte sequence at rising indices from `a` (R50: the stream's order is the order of OUT's indices). -/
def Memory.writeBytes (m : Memory) (a : Nat) (bytes : List Byte) : Memory :=
  match bytes with
  | [] => m
  | v :: rest => Memory.writeBytes (m.write a v) (a + 1) rest

/-- The bytes at `a .. a + len`. -/
def Memory.readBytes (m : Memory) (a len : Nat) : List Byte :=
  match len with
  | 0 => []
  | k + 1 => m.read a :: m.readBytes (a + 1) k

/-- The canonical form from a lower bound on: addresses strictly rising, no listed byte 0. -/
def Memory.wfFrom (low : Nat) (m : Memory) : Bool :=
  match m with
  | [] => true
  | (b, v) :: rest => low ≤ b && v != 0 && Memory.wfFrom (b + 1) rest

/-- The canonical form of a buffer: equal contents are equal lists. -/
def Memory.wf (m : Memory) : Bool := m.wfFrom 0

/-- Stores the natural number `v` in a 32-bit register. Arithmetic never wraps (R9) and every value the rules can
produce fits (R28); a value that would not fit, in a state no run reaches, is a free value (log 6). `slot` tells the
registers of one step apart. -/
def State.fit (s : State) (slot v : Nat) : Word :=
  if v < 2 ^ 32 then BitVec.ofNat 32 v else Config.freeWord (s.fresh + slot)

/-- `emit` of R11 for each byte in turn: the bytes go to OUT from index OUTPTR on, and OUTPTR moves past them. -/
def State.emit (s : State) (bytes : List Byte) : State :=
  { s with
    out := s.out.writeBytes s.outptr.toNat bytes
    outptr := s.fit 0 (s.outptr.toNat + bytes.length) }

/-- BUSY as a function of PHASE (R33). -/
def Phase.busy (ph : Phase) : Bool := ph == .scan || ph == .run || ph == .lit || ph == .fin

/-- `pc <- ph` (R11), with R30: a register whose live phases (Table R28) this move leaves has no value from here on, a
free value. STRIDE, ROWOFF, P and OUTPTR are kept through FIN, where R37 gives their values (log 3). -/
def State.toPhase (s : State) (ph : Phase) : State :=
  let launchEnds := s.phase.busy && !ph.busy
  { s with
    phase := ph
    stride := if launchEnds then Config.freeWord (s.fresh + 4) else s.stride
    rowoff := if launchEnds then Config.freeWord (s.fresh + 5) else s.rowoff
    p := if launchEnds then Config.freeWord (s.fresh + 6) else s.p
    outptr := if launchEnds then Config.freeWord (s.fresh + 7) else s.outptr
    rl := if s.phase == .run && ph != .run then Config.freeWord (s.fresh + 8) else s.rl
    val := if s.phase == .run && ph != .run then Config.freeByte (s.fresh + 9) else s.val
    n := if s.phase == .lit && ph != .lit then Config.freeWord (s.fresh + 10) else s.n
    fresh := s.fresh + 11 }

/-- The seven working registers but PHASE lose their values (R184, R36): each becomes a free value. -/
def State.lose (s : State) : State :=
  { s with
    stride := Config.freeWord (s.fresh + 4)
    rowoff := Config.freeWord (s.fresh + 5)
    p := Config.freeWord (s.fresh + 6)
    outptr := Config.freeWord (s.fresh + 7)
    rl := Config.freeWord (s.fresh + 8)
    val := Config.freeByte (s.fresh + 9)
    n := Config.freeWord (s.fresh + 10)
    fresh := s.fresh + 11 }

/-- ERROR ENTRY, `raise InvalidPrecondition(code)` (R207): ERROR and ERR_CODE, PHASE = ERROR. Nothing is saved, there
is no handler and no vector; WIDTH, IMAGE_SIZE and OUT_CAP keep their values and the working registers get none. -/
def State.raise (s : State) (code : BitVec 4) : State := ({ s with errCode := code }).toPhase .error

/-- LEAVING THE ERROR STATE, and DONE (R210): there is no return operation; an accepted H_START clears the last launch's
result, ENC_SIZE and ERR_CODE, before its own checks (Pseudocode R180). DONE and ERROR fall with the move of PHASE that
ends the H_START. -/
def State.clearResult (s : State) : State := { s with encSize := 0, errCode := 0 }

/-- The host can rely on the `len` bytes of OUT from index `first` on: they were stored by the host itself, or belong to a
finished stream (R61, R231; log 23). -/
def State.settle (s : State) (first len : Nat) : State :=
  { s with settled := s.settled.map (fun spans => (first, len) :: spans) }

/-- A micro-operation takes its effect where its row of Table R97 holds; elsewhere the core does not select it
(log 9). -/
def State.whenSelected (selected : Bool) (t : State) : Host.Outcome State Fault Refusal :=
  if selected then .next t else .refused .notSelected

end Sys2Proof.Machine
end

