-- ==== Sys2Proof/Machine/Flags.lean ====
section
/-! DEFINITION. The flags BUSY, DONE and ERROR, each a function of PHASE (R33), and the STATUS word (R22). -/

namespace Sys2Proof.Machine

/-- `DONE = (PHASE = DONE)` (R33). -/
def Phase.isDone (ph : Phase) : Bool := ph == .done

/-- `ERROR = (PHASE = ERROR)` (R33). -/
def Phase.isError (ph : Phase) : Bool := ph == .error

/-- STATUS bit 0, BUSY (R22). -/
def State.busy (s : State) : Bool := s.phase.busy

/-- The STATUS word of Tables R22 and R183: `ERR_CODE · 16 + ERROR · 4 + DONE · 2 + BUSY`, all other bits 0. -/
def State.status (s : State) : Word :=
  BitVec.ofNat 32 (s.errCode.toNat * 16 + s.phase.isError.toNat * 4 + s.phase.isDone.toNat * 2 + s.phase.busy.toNat)

end Sys2Proof.Machine
end

