-- ==== Sys2Proof/Machine/Operands.lean ====
section
/-! DEFINITION. What an operation reads: the PHASE code and the guard that select it (R97), the window of PIX it looks
at (R57, R140), and a host-visible register by number (Table R183). -/

namespace Sys2Proof.Machine

/-- The code of a phase (Table R32). -/
def Phase.code : Phase → BitVec 3
  | .idle => 0
  | .scan => 1
  | .run => 2
  | .lit => 3
  | .fin => 4
  | .done => 5
  | .error => 6

/-- The guard of Table R97 that holds. -/
def State.guard (s : State) : Guard :=
  match s.phase with
  | .scan => if s.p < s.stride then .pBelowStride else if s.p = s.stride then .pAtStride else .none
  | .lit => if 3 ≤ s.n.toNat then .nAtLeast3 else .nAtMost2
  | _ => .none

/-- `PIX[ROWOFF + P .. ROWOFF + STRIDE)`, what is left of the current row (R57, R120). -/
def State.rowRest (s : State) : List Byte :=
  s.pix.readBytes (s.rowoff.toNat + s.p.toNat) (s.stride.toNat - s.p.toNat)

/-- `PIX[ROWOFF + P .. ROWOFF + P + c)`, the next `c` source bytes (R166). -/
def State.source (s : State) (c : Nat) : List Byte := s.pix.readBytes (s.rowoff.toNat + s.p.toNat) c

/-- The value a read of a register returns (Table R183); numbers 6 and 7 are unassigned (R27). -/
def State.register (s : State) (number : BitVec 3) : Word :=
  if number = 1 then s.status
  else if number = 2 then s.width
  else if number = 3 then s.imageSize
  else if number = 4 then s.outCap
  else if number = 5 then s.encSize
  else 0

/-- The host can rely on what it reads at index `a` of OUT: BUSY = 0 (R61, R238), and no reset has cut a launch short
since the byte was stored (R231; log 23). -/
def State.outKnown (s : State) (a : Nat) : Bool :=
  !s.busy &&
    match s.settled with
    | none => true
    | some spans => spans.any (fun span => span.1 ≤ a && a < span.1 + span.2)

/-- Stores a configuration register, all 32 bits (R182). -/
def State.setConfig (s : State) (reg : CfgReg) (data : Word) : State :=
  match reg with
  | .width => { s with width := data }
  | .imageSize => { s with imageSize := data }
  | .outCap => { s with outCap := data }

end Sys2Proof.Machine
end

