-- ==== Sys2Proof/Machine/RunPacker.lean ====
section
/-! DEFINITION. The run packer and its chunker (42_run_packer.md): the value `EncRun` and the micro-operation
U_REPEAT. -/

namespace Sys2Proof.Machine

/-- `EncRun(L, v)` of R150: `L / 255` tokens `(255, v)`, then `(L % 255, v)` if that is not 0. -/
def encRun (len : Nat) (v : Byte) : List Byte :=
  (List.replicate (len / 255) (repeatBytes 255 v)).flatten ++
    (if len % 255 > 0 then repeatBytes (BitVec.ofNat 8 (len % 255)) v else [])

/-- Pseudocode R151 with `c = min(RL, 255)`. -/
def State.repeatStep (s : State) (c : Nat) : State :=
  let t := s.emit (repeatBytes (BitVec.ofNat 8 c) s.val)
  let u := { t with p := s.fit 1 (s.p.toNat + c), rl := BitVec.ofNat 32 (s.rl.toNat - c) }
  u.toPhase (if s.rl.toNat - c = 0 then .scan else .run)

/-- U_REPEAT (R151). -/
def execURepeat (s : State) : Host.Outcome State Fault Refusal :=
  State.whenSelected (s.phase == .run) (s.repeatStep (min s.rl.toNat 255))

end Sys2Proof.Machine
end

