-- ==== Sys2Proof/Machine/LiteralPacker.lean ====
section
/-! DEFINITION. The literal packer with its look-ahead, chunker and word-aligner (43_literal_packer.md): the values
`LitLen` and `EncLit`, and the micro-operations U_ABS and U_SHORT. -/

namespace Sys2Proof.Machine

/-- How many bytes stand before the first position with a run of 3 or more; all of them if there is none. -/
def bytesBeforeRun : List Byte → Nat
  | [] => 0
  | b :: rest => if 3 ≤ runLen (b :: rest) then 0 else bytesBeforeRun rest + 1

/-- `LitLen(row, p)` of R160 for `row.drop p`: the distance to the least position after `p` with RunLen ≥ 3, or to
the row's end. -/
def litLen : List Byte → Nat
  | [] => 0
  | _ :: rest => bytesBeforeRun rest + 1

/-- Pseudocode R160, hopping from run to run: `n` bytes are taken so far, `fuel` bounds the hops. -/
def litLenHop : Nat → Nat → List Byte → Nat
  | 0, n, _ => n
  | _ + 1, n, [] => n
  | fuel + 1, n, b :: rest =>
    if 3 ≤ runLen (b :: rest) then n
    else litLenHop fuel (n + runLen (b :: rest)) ((b :: rest).drop (runLen (b :: rest)))

/-- Pseudocode R160 from its first line on. -/
def litLenHopping (row : List Byte) : Nat := litLenHop row.length (runLen row) (row.drop (runLen row))

/-- The loop of Pseudocode R161: `before` is the byte just scanned, `rc` the runCounter, `n` the bytes scanned. -/
def byteScan (before : Byte) (rc n : Nat) : List Byte → Nat
  | [] => n
  | b :: rest =>
    let rc' := if b = before then rc + 1 else 1
    if rc' = 3 then n - 2 else byteScan b rc' (n + 1) rest

/-- `LitLenBytewise(row, p)` of R161 for `row.drop p`. -/
def litLenBytewise : List Byte → Nat
  | [] => 0
  | b :: rest => byteScan b 1 1 rest

/-- `ShortLit(t)` of R165: each byte as `(1, b)` (R94). -/
def shortLit (bytes : List Byte) : List Byte := (bytes.map (repeatBytes 1)).flatten

/-- Pseudocode R165 from `whole` chunks of 255 bytes on: then the tail. -/
def encChunks : Nat → List Byte → List Byte
  | 0, tail => if 3 ≤ tail.length then absBytes tail else shortLit tail
  | whole + 1, bytes => absBytes (bytes.take 255) ++ encChunks whole (bytes.drop 255)

/-- `EncLit(b)` of R165. -/
def encLit (bytes : List Byte) : List Byte :=
  if bytes.length < 3 then shortLit bytes else encChunks (bytes.length / 255) bytes

/-- Pseudocode R166 with `c = min(N, 255)`. -/
def State.absStep (s : State) (c : Nat) : State :=
  let t := s.emit (absBytes (s.source c))
  let u := { t with p := s.fit 1 (s.p.toNat + c), n := BitVec.ofNat 32 (s.n.toNat - c) }
  u.toPhase (if s.n.toNat - c = 0 then .scan else .lit)

/-- U_ABS (R166). -/
def execUAbs (s : State) : Host.Outcome State Fault Refusal :=
  State.whenSelected (s.phase == .lit && 3 ≤ s.n.toNat) (s.absStep (min s.n.toNat 255))

/-- `x[N] - 1`; N is 1 or 2 where U_SHORT runs (R167), and the difference a free value for N = 0, in a state no run
reaches (log 6). -/
def State.nLess1 (s : State) : Word :=
  if s.n.toNat = 0 then Config.freeWord (s.fresh + 2) else BitVec.ofNat 32 (s.n.toNat - 1)

/-- Pseudocode R167. -/
def State.shortStep (s : State) : State :=
  let t := s.emit (repeatBytes 1 (s.pix.read (s.rowoff.toNat + s.p.toNat)))
  let u := { t with p := s.fit 1 (s.p.toNat + 1), n := s.nLess1 }
  u.toPhase (if s.nLess1 = 0 then .scan else .lit)

/-- U_SHORT (R167). -/
def execUShort (s : State) : Host.Outcome State Fault Refusal :=
  State.whenSelected (s.phase == .lit && s.n.toNat ≤ 2) s.shortStep

end Sys2Proof.Machine
end

