-- ==== Sys2Proof/Machine/Multiplexer.lean ====
section
/-! DEFINITION. The scanline multiplexer (40_scanline_multiplexer.md): Stride, the values `EncRow` and `Encode`, and the
micro-operations U_DETECT, U_EOL and U_FIN. -/

namespace Sys2Proof.Machine

/-- `Stride(w)` of R110, over the natural numbers. -/
def strideOf (w : Nat) : Nat := w + (4 - w % 4) % 4

/-- The loop of Pseudocode R118 on what is left of the row; `fuel` bounds its turns. -/
def encRowLoop : Nat → List Byte → List Byte
  | 0, _ => []
  | _ + 1, [] => []
  | fuel + 1, v :: rest =>
    if 3 ≤ runLen (v :: rest) then
      encRun (runLen (v :: rest)) v ++ encRowLoop fuel ((v :: rest).drop (runLen (v :: rest)))
    else
      encLit ((v :: rest).take (litLen (v :: rest))) ++ encRowLoop fuel ((v :: rest).drop (litLen (v :: rest)))

/-- `EncRow(row)` of R118: the token bytes of one row without its marker. -/
def encRow (row : List Byte) : List Byte := encRowLoop row.length row

/-- The tokens of `count` rows of `stride` bytes from index `offset` on, each closed by `00 00` (R115, R119). -/
def encRows (pix : Memory) (stride : Nat) : Nat → Nat → List Byte
  | _, 0 => []
  | offset, count + 1 =>
    encRow (pix.readBytes offset stride) ++ eolBytes ++ encRows pix stride (offset + stride) count

/-- The four checks of R201 in the order of R208: the code of the first that fails, or `none`. -/
def checkLaunch (width imageSize cap : Nat) : Option (BitVec 4) :=
  if width = 0 then some 1
  else if imageSize = 0 then some 2
  else if imageSize % strideOf width ≠ 0 then some 3
  else if cap < 2 * imageSize then some 4
  else none

/-- `out[len(out)-1] <- 0x01` of Pseudocode R119. -/
def closeBitmap (stream : List Byte) : List Byte := stream.set (stream.length - 1) 1

/-- `Encode(pix, width, imageSize, cap)` of R119. -/
def encodeImage (pix : Memory) (width imageSize cap : Nat) : Except (BitVec 4) (List Byte) :=
  match checkLaunch width imageSize cap with
  | some code => .error code
  | none => .ok (closeBitmap (encRows pix (strideOf width) 0 (imageSize / strideOf width)))

/-- Pseudocode R120. -/
def State.detectStep (s : State) : State :=
  if 3 ≤ runLen s.rowRest then
    ({ s with
        val := s.pix.read (s.rowoff.toNat + s.p.toNat)
        rl := BitVec.ofNat 32 (runLen s.rowRest) }).toPhase .run
  else ({ s with n := BitVec.ofNat 32 (litLen s.rowRest) }).toPhase .lit

/-- U_DETECT (R120). -/
def execUDetect (s : State) : Host.Outcome State Fault Refusal :=
  State.whenSelected (s.phase == .scan && s.p < s.stride) s.detectStep

/-- Pseudocode R121. The loop test compares the sum as a natural number. -/
def State.eolStep (s : State) : State :=
  let t := s.emit eolBytes
  let u := { t with rowoff := s.fit 3 (s.rowoff.toNat + s.stride.toNat), p := 0 }
  u.toPhase (if s.rowoff.toNat + s.stride.toNat < s.imageSize.toNat then .scan else .fin)

/-- U_EOL (R121). -/
def execUEol (s : State) : Host.Outcome State Fault Refusal :=
  State.whenSelected (s.phase == .scan && s.p == s.stride) s.eolStep

/-- Pseudocode R122: the two stores, then ENC_SIZE, then the flags (R62). From here on the host can rely on
`OUT[0 .. ENC_SIZE)` (R61). -/
def State.finStep (s : State) : State :=
  (({ s with
      out := s.out.writeBytes (s.outptr.toNat - 2) eobBytes
      encSize := s.outptr }).settle 0 s.outptr.toNat).toPhase .done

/-- U_FIN (R122). With OUTPTR < 2, in a state no run reaches (R248), the index OUTPTR − 2 does not exist (log 7). -/
def execUFin (s : State) : Host.Outcome State Fault Refusal :=
  if s.phase == .fin && s.outptr.toNat < 2 then .fault .noSuchOutIndex
  else State.whenSelected (s.phase == .fin) s.finStep

end Sys2Proof.Machine
end

