-- ==== Sys2Proof/Machine/HostCommands.lean ====
section
/-! DEFINITION. The four host commands (44_host_commands.md). -/

namespace Sys2Proof.Machine

/-- What H_START does once its checks have passed (the end of Pseudocode R180). -/
def State.launch (s : State) : State :=
  ({ s with
      stride := BitVec.ofNat 32 (strideOf s.width.toNat)
      rowoff := 0
      p := 0
      outptr := 0 }).toPhase .scan

/-- Pseudocode R180 where BUSY = 0. -/
def State.startStep (s : State) : State :=
  match checkLaunch s.width.toNat s.imageSize.toNat s.outCap.toNat with
  | some code => s.clearResult.raise code
  | none => s.clearResult.launch

/-- H_START (R180); ignored while BUSY = 1 (R181). Data bits [31:1] are ignored. -/
def execHStart (_ignored : BitVec 31) (s : State) : Host.Outcome State Fault Refusal :=
  .next (if s.busy then s else s.startStep)

/-- H_WRITE_CFG (R182); ignored while BUSY = 1. -/
def execHWriteCfg (reg : CfgReg) (data : Word) (s : State) : Host.Outcome State Fault Refusal :=
  .next (if s.busy then s else s.setConfig reg data)

/-- H_READ (R183): the value goes to the host and nothing of the block changes (log 11). -/
def execHRead (reg : BitVec 3) (s : State) : Host.Outcome State Fault Refusal :=
  .next { s with rdata := s.register reg }

/-- Pseudocode R184. PIX and OUT are not touched; where a launch is cut short, the host can rely on no byte of OUT from
here on (R231; log 12, log 23). -/
def State.resetStep (s : State) : State :=
  { s.lose with
    width := 0
    imageSize := 0
    outCap := 0
    encSize := 0
    errCode := 0
    phase := .idle
    settled := if s.busy then some [] else s.settled }

/-- H_RESET (R184), accepted in every phase. -/
def execHReset (s : State) : Host.Outcome State Fault Refusal := .next s.resetStep

end Sys2Proof.Machine
end

