-- ==== Sys2Proof/Machine/Tokens.lean ====
section
/-! DEFINITION. What each token of the stream means to a decoder (R82 to R86), as the step Pseudocode R92 takes on it: a
token acts on the reader and on nothing else (log 2). The reader's turn has already moved `rest` past the token. -/

namespace Sys2Proof.Machine

/-- `out <- out ++ bytes` of Pseudocode R92. -/
def Reader.append (r : Reader) (bytes : List Byte) : Reader := { r with out := r.out ++ bytes }

/-- A token before the end-of-bitmap marker takes effect; one after it is refused (R92, "trailing bytes"). -/
def State.whenReading (s : State) (r : Reader) : Host.Outcome State Fault Refusal :=
  if s.reader.ended then .refused .afterEndOfBitmap else .next { s with reader := r }

/-- T_EOL: one marker (R83). -/
def execTEol (s : State) : Host.Outcome State Fault Refusal :=
  s.whenReading { s.reader with markers := s.reader.markers + 1 }

/-- T_EOB: one marker, and the stream ends here; bytes after it are refused (R84, R92). -/
def execTEob (s : State) : Host.Outcome State Fault Refusal :=
  if s.reader.rest = [] then
    s.whenReading { s.reader with markers := s.reader.markers + 1, ended := true }
  else .refused .afterEndOfBitmap

/-- T_DELTA: refused by the reference decoder (R86, R92). -/
def execTDelta (_s : State) : Host.Outcome State Fault Refusal := .refused .deltaToken

/-- T_ABS: "the token stands for its `n` payload bytes in order; the pad byte stands for nothing" (R85). -/
def execTAbs (payload : List Byte) (s : State) : Host.Outcome State Fault Refusal :=
  s.whenReading (s.reader.append payload)

/-- T_REPEAT: "the token stands for `count` source bytes all equal to `value`" (R82). -/
def execTRepeat (count value : Byte) (s : State) : Host.Outcome State Fault Refusal :=
  s.whenReading (s.reader.append (List.replicate count.toNat value))

end Sys2Proof.Machine
end

