-- ==== Sys2Proof/Machine/Dispatch.lean ====
section
/-! DEFINITION. One arm per operation of spec/opcode_table.json. -/

namespace Sys2Proof.Machine

def exec (i : Instr) (s : State) : Host.Outcome State Fault Refusal :=
  match i with
  -- tokens (30_encoding.md R82 to R86)
  | .tEol => Sys2Proof.Machine.execTEol s
  | .tEob => Sys2Proof.Machine.execTEob s
  | .tDelta => Sys2Proof.Machine.execTDelta s
  | .tAbs payload => Sys2Proof.Machine.execTAbs payload s
  | .tRepeat count value => Sys2Proof.Machine.execTRepeat count value s
  -- micro-operations (R120, R121, R151, R166, R167, R122)
  | .uDetect => Sys2Proof.Machine.execUDetect s
  | .uEol => Sys2Proof.Machine.execUEol s
  | .uRepeat => Sys2Proof.Machine.execURepeat s
  | .uAbs => Sys2Proof.Machine.execUAbs s
  | .uShort => Sys2Proof.Machine.execUShort s
  | .uFin => Sys2Proof.Machine.execUFin s
  -- host commands (R180, R182, R183, R184)
  | .hStart ignored => Sys2Proof.Machine.execHStart ignored s
  | .hWriteCfg reg data => Sys2Proof.Machine.execHWriteCfg reg data s
  | .hRead reg => Sys2Proof.Machine.execHRead reg s
  | .hReset => Sys2Proof.Machine.execHReset s

end Sys2Proof.Machine
end

