-- ==== Sys2Proof/Machine/HostMemory.lean ====
section
/-! DEFINITION. The host's own accesses to the two buffers it owns (Table R189, R236, R238; log 14). They are no rows of
the opcode table. -/

namespace Sys2Proof.Machine

/-- The host stores a byte of PIX: allowed while BUSY = 0, a violated duty while BUSY = 1 (R236, U3). -/
def hostStorePix (index : Word) (value : Byte) (s : State) : Host.Outcome State Fault Refusal :=
  if s.busy then .refused .pixWrittenWhileBusy else .next { s with pix := s.pix.write index.toNat value }

/-- The host stores a byte of OUT: allowed while BUSY = 0, a violated duty while BUSY = 1 (R238, U4). -/
def hostStoreOut (index : Word) (value : Byte) (s : State) : Host.Outcome State Fault Refusal :=
  if s.busy then .refused .outWrittenWhileBusy
  else .next ({ s with out := s.out.write index.toNat value }.settle index.toNat 1)

/-- The host reads a byte of PIX, which it may do in every phase (Table R189). -/
def hostLoadPix (index : Word) (s : State) : Host.Outcome State Fault Refusal :=
  .next { s with rdata := (s.pix.read index.toNat).setWidth 32 }

/-- The host reads a byte of OUT: its contents where the host can rely on them, any value while BUSY = 1 (R61, R238, U4)
and for a byte that a launch cut short has left undefined (R231, U7). -/
def hostLoadOut (index : Word) (s : State) : Host.Outcome State Fault Refusal :=
  .next
    { s with
      rdata := (if s.outKnown index.toNat then s.out.read index.toNat else Config.freeByte (s.fresh + 9)).setWidth 32
      fresh := s.fresh + 11 }

end Sys2Proof.Machine
end

