-- ==== Sys2Proof/Machine/Sequencer.lean ====
section
/-! DEFINITION. How a step finds its operation: the reset input first, then the turn's move; where the turns are spent the
core runs on (log 1, log 13). And how a table word is placed so that the next step runs it (log 17). -/

namespace Sys2Proof.Machine

/-- The core's move (R97): the micro-operation PHASE and its guard select; nothing in IDLE, DONE and ERROR, where the
core is quiescent. -/
def coreMove (s : State) : Host.Outcome State Fault Refusal :=
  match decode (.phase s.phase.code s.guard) with
  | .ok (i, _) => exec i s
  | .error .quiescent => .next s
  | .error _ => .fault .stuck

/-- A register access of the host (R96); a write that selects no command changes nothing. -/
def commandMove (word : BitVec 36) (s : State) : Host.Outcome State Fault Refusal :=
  match decode (.command word) with
  | .ok (i, _) => exec i s
  | .error _ => .next s

/-- The reader decodes the next token of its stream (R92); once it has returned it does nothing. -/
def readerMove (s : State) : Host.Outcome State Fault Refusal :=
  if s.reader.ended then .next s
  else
    match decode (.stream s.reader.rest) with
    | .ok (i, rest) => exec i { s with reader := { s.reader with rest := rest } }
    | .error _ => .refused .truncatedStream

/-- A turn whose reset input is not asserted. -/
def Turn.of (m : Move) : Turn := { reset := false, move := m }

/-- The effect of a move. -/
def runMove (m : Move) (s : State) : Host.Outcome State Fault Refusal :=
  match m with
  | .core => coreMove s
  | .command word => commandMove word s
  | .reader => readerMove s
  | .storePix index value => hostStorePix index value s
  | .storeOut index value => hostStoreOut index value s
  | .loadPix index => hostLoadPix index s
  | .loadOut index => hostLoadOut index s

/-- One step. An asserted reset input has priority over the move that would otherwise be the next step (R184, R208); the
move is still to come after it (log 13). -/
def runTurn (s : State) : Host.Outcome State Fault Refusal :=
  match s.turns with
  | [] => coreMove s
  | t :: rest =>
    match decode (.resetLine t.reset) with
    | .ok (i, _) => exec i { s with turns := Turn.of t.move :: rest }
    | .error _ => runMove t.move { s with turns := rest }

/-- PHASE and the operands that make a PHASE code and its first guard hold (log 17): SCAN with P below STRIDE, RUN with
RL ≥ 1, LIT with N ≥ 3, FIN with OUTPTR ≥ 4 (R97, R248). -/
def State.placePhase (s : State) (code : BitVec 3) : State :=
  if code = 1 then
    { s with
      phase := .scan
      p := if s.p < s.stride then s.p else 0
      stride := if s.stride = 0 then 4 else s.stride }
  else if code = 2 then { s with phase := .run, rl := if s.rl = 0 then 1 else s.rl }
  else if code = 3 then { s with phase := .lit, n := if s.n.toNat < 3 then 3 else s.n }
  else if code = 4 then { s with phase := .fin, outptr := if s.outptr.toNat < 4 then 4 else s.outptr }
  else s

/-- The state with an encoded operation where the next step fetches it. -/
def State.place (s : State) : Encoded → State
  | .stream bytes =>
    { s with reader := { s.reader with rest := bytes, ended := false }, turns := Turn.of .reader :: s.turns }
  | .phase code _ => { s.placePhase code with turns := Turn.of .core :: s.turns }
  | .command word => { s with turns := Turn.of (.command word) :: s.turns }
  | .resetLine b => { s with turns := { reset := b, move := .core } :: s.turns }

/-- `withFetchWord` of Machine/Step.lean; a word of no row is placed nowhere. -/
def State.placeWord (s : State) (nbits w : Nat) : State :=
  match tableWord nbits w with
  | some e => s.place e
  | none => s

end Sys2Proof.Machine
end

