-- ==== Sys2Proof/Machine/Step.lean ====
section
/-! DEFINITION. One step of the machine: one host command, one micro-operation, one reader token or one host access. -/

namespace Sys2Proof.Machine

/-- A step (R244, D2). -/
def step : State → Host.Outcome State Fault Refusal := runTurn

/-- The state with an operation of spec/opcode_table.json placed where `step` fetches its next one (log 17). -/
def State.withFetchWord (s : State) (nbits w : Nat) : State := s.placeWord nbits w

end Sys2Proof.Machine
end

