-- ==== Sys2Proof/Safety.lean ====
section
/-! DEFINITION. The terms the statements are made in: what stays the same over a step, the invariants of the machine
(R22, R26, R33, R37), the relation of R30 on states, and what an image and its stream are. -/

namespace Sys2Proof.Machine

/-! ### Frames -/

/-- The three configuration registers are the same (R23, R24, R25). -/
def State.SameConfig (s t : State) : Prop := t.width = s.width ∧ t.imageSize = s.imageSize ∧ t.outCap = s.outCap

/-- The result of the last launch is the same: ENC_SIZE and ERR_CODE (R26, R22). -/
def State.SameResult (s t : State) : Prop := t.encSize = s.encSize ∧ t.errCode = s.errCode

/-- What lies outside the block is the same: the turns to come, the host's last read value, the reader. -/
def State.SameOutside (s t : State) : Prop := t.turns = s.turns ∧ t.rdata = s.rdata ∧ t.reader = s.reader

/-- All of the block's registers are the same. -/
def State.SameRegisters (s t : State) : Prop :=
  s.SameConfig t ∧ s.SameResult t ∧ t.phase = s.phase ∧ t.stride = s.stride ∧ t.rowoff = s.rowoff ∧ t.p = s.p ∧
    t.outptr = s.outptr ∧ t.rl = s.rl ∧ t.val = s.val ∧ t.n = s.n

/-- The `bytes` stand in the buffer `m'` from index `a` on, and every other byte reads as it did in `m`. -/
def Memory.Stored (m m' : Memory) (a : Nat) (bytes : List Byte) : Prop :=
  m'.readBytes a bytes.length = bytes ∧ ∀ i, i < a ∨ a + bytes.length ≤ i → m'.read i = m.read i

/-! ### Invariants -/

/-- Both buffers are in canonical form. -/
def State.BuffersWf (s : State) : Prop := s.pix.wf = true ∧ s.out.wf = true

/-- ERR_CODE is nonzero exactly when ERROR = 1, and then 1 to 4 (R33, R201); ENC_SIZE is 0 unless DONE = 1 (R26). -/
def State.StatusOk (s : State) : Prop :=
  (s.errCode ≠ 0 ↔ s.phase = .error) ∧ s.errCode.toNat ≤ 4 ∧ (s.phase ≠ .done → s.encSize = 0)

/-- `PIX[ROWOFF .. ROWOFF + STRIDE)`, the current row (R111). -/
def State.row (s : State) : List Byte := s.pix.readBytes s.rowoff.toNat s.stride.toNat

/-- The position in the row where the current activation ends: the left end of the next one (R143, R161). -/
def State.activationEnd (s : State) : Nat :=
  match s.phase with
  | .run => s.p.toNat + s.rl.toNat
  | .lit => s.p.toNat + s.n.toNat
  | _ => s.p.toNat

/-- The token bytes of the current row that the launch has still to append, its marker apart. -/
def State.owed (s : State) : List Byte :=
  match s.phase with
  | .scan => encRow s.rowRest
  | .run => encRun s.rl.toNat s.val ++ encRow (s.rowRest.drop s.rl.toNat)
  | .lit => encLit (s.rowRest.take s.n.toNat) ++ encRow (s.rowRest.drop s.n.toNat)
  | _ => []

/-- The clauses of R37 that speak of registers and PIX, for a launch in progress, with the checks H_START has made
(R202 to R205) and the maximality of the current run or stretch (R152, R162), which R37 needs to be kept. -/
structure State.LaunchRegisters (s : State) : Prop where
  width_pos : 0 < s.width.toNat
  size_pos : 0 < s.imageSize.toNat
  stride_eq : s.stride.toNat = strideOf s.width.toNat
  whole_rows : s.imageSize.toNat % s.stride.toNat = 0
  cap_enough : 2 * s.imageSize.toNat ≤ s.outCap.toNat
  row_aligned : s.rowoff.toNat % s.stride.toNat = 0
  row_inside : s.phase ≠ .fin → s.rowoff.toNat < s.imageSize.toNat
  rows_spent : s.phase = .fin → s.rowoff.toNat = s.imageSize.toNat ∧ s.p.toNat = 0
  end_inside : s.activationEnd ≤ s.stride.toNat
  run_pos : s.phase = .run → 1 ≤ s.rl.toNat
  lit_pos : s.phase = .lit → 1 ≤ s.n.toNat
  run_bytes : s.phase = .run → ∀ i < s.rl.toNat, s.pix.read (s.rowoff.toNat + s.p.toNat + i) = s.val
  left_end : 0 < s.activationEnd → s.activationEnd < s.stride.toNat → s.phase ≠ .fin →
    s.pix.read (s.rowoff.toNat + (s.activationEnd - 1)) ≠ s.pix.read (s.rowoff.toNat + s.activationEnd)

/-- The clauses of R37 that speak of OUT: what is written and what is owed make the tokens of the rows so far; OUTPTR is
even, and at most twice the source bytes consumed. -/
structure State.LaunchStream (s : State) : Prop where
  written : s.phase ≠ .fin →
    s.out.readBytes 0 s.outptr.toNat ++ s.owed =
      encRows s.pix s.stride.toNat 0 (s.rowoff.toNat / s.stride.toNat) ++ encRow s.row
  all_written : s.phase = .fin →
    s.out.readBytes 0 s.outptr.toNat = encRows s.pix s.stride.toNat 0 (s.imageSize.toNat / s.stride.toNat)
  even : s.outptr.toNat % 2 = 0
  bound : s.outptr.toNat ≤ 2 * (s.rowoff.toNat + s.p.toNat)

/-- The invariant of R37, which holds while BUSY = 1. -/
def State.LaunchOk (s : State) : Prop := s.busy = true → s.LaunchRegisters ∧ s.LaunchStream

/-! ### Live registers (R30) -/

/-- Table R28, the column "live in", for STRIDE, ROWOFF and P. -/
def Phase.inRow (ph : Phase) : Bool := ph == .scan || ph == .run || ph == .lit

/-- The states agree on everything but working registers outside their live phases (Table R28). -/
def State.SameLive (s t : State) : Prop :=
  s.SameConfig t ∧ s.SameResult t ∧ s.SameOutside t ∧ t.phase = s.phase ∧ t.pix = s.pix ∧ t.out = s.out ∧
    t.settled = s.settled ∧ t.fresh = s.fresh ∧
    (s.phase.inRow = true → t.stride = s.stride ∧ t.rowoff = s.rowoff ∧ t.p = s.p) ∧
    (s.phase.busy = true → t.outptr = s.outptr) ∧
    (s.phase = .run → t.rl = s.rl ∧ t.val = s.val) ∧
    (s.phase = .lit → t.n = s.n)

/-! ### Runs -/

/-- `k` steps lead from `s` to `t`. -/
def State.Reaches (s : State) (k : Nat) (t : State) : Prop := Host.Core.run Sys2Proof.core k s = .next t

/-- The next step is the core's own or a host command (reset included): no host access to a buffer, no reader step. -/
def State.BlockTurn (s : State) : Prop :=
  match s.turns with
  | [] => True
  | t :: _ => t.reset = true ∨ t.move = .core ∨ ∃ word, t.move = .command word

/-- The value of `Encode` (R119) for the configuration registers and PIX. -/
def State.encoded (s : State) : Except (BitVec 4) (List Byte) :=
  encodeImage s.pix s.width.toNat s.imageSize.toNat s.outCap.toNat

/-- The micro-operations of Table R97. -/
def microOperations : List Instr := [.uDetect, .uEol, .uRepeat, .uAbs, .uShort, .uFin]

/-- The tokens of R82 to R85. -/
def isToken : Instr → Bool
  | .tEol => true
  | .tEob => true
  | .tDelta => true
  | .tAbs _ => true
  | .tRepeat _ _ => true
  | .uDetect => false
  | .uEol => false
  | .uRepeat => false
  | .uAbs => false
  | .uShort => false
  | .uFin => false
  | .hStart _ => false
  | .hWriteCfg _ _ => false
  | .hRead _ => false
  | .hReset => false

end Sys2Proof.Machine
end

