-- ==== Sys2Proof/Certificates/Slice0/Obligations.lean ====
section
/-! DEFINITION. The statements made about the model, from the numbered rules of spec/. A statement about OUT or PIX after
a store takes the canonical form of the buffers as a premise; that form is an invariant, stated below. A bound such as
`s.p.toNat + c < 2 ^ 32` rules out states no run reaches, in which a sum does not fit its register (R28, log 6). -/

open Sys2Proof Sys2Proof.Machine

/-! ### Encodings -/

/-- Decode and encode agree for every well-formed operation, with every operand (Tables R81, R96, R97). -/
def Obligations.DecodeOfEncodeIsTheOperation : Prop :=
  ∀ i : Instr, i.wf = true → decode (encode i) = .ok (i, [])

/-- A token's bytes decode to the token whatever bytes follow, which are left over (R80, R88). -/
def Obligations.TokenIsReadInFrontOfAnyStream : Prop :=
  ∀ (i : Instr) (bytes rest : List Byte), i.wf = true → encode i = .stream bytes →
    decodeToken (bytes ++ rest) = .ok (i, rest)

/-- A command word of a write that selects a command is the encoding of that command: no bit is dropped (R96). -/
def Obligations.EncodeOfDecodedWriteIsTheWord : Prop :=
  ∀ (w : BitVec 36) (i : Instr), w.extractLsb' 35 1 = 1 → decodeCommand w = .ok i → encode i = .command w

/-- Words written out from the spec's encodings: R82 to R86 examples, Table R96, Table R97. -/
def Obligations.SpecWordsDecode : Prop :=
  decodeToken [0x0A, 0x07] = .ok (.tRepeat 10 7, []) ∧
  decodeToken [0x00, 0x00] = .ok (.tEol, []) ∧
  decodeToken [0x00, 0x01] = .ok (.tEob, []) ∧
  decodeToken [0x00, 0x02] = .ok (.tDelta, []) ∧
  decodeToken [0x00, 0x03, 0x05, 0x05, 0x09, 0x00] = .ok (.tAbs [5, 5, 9], []) ∧
  decodePhase 0b001 .pBelowStride = .ok .uDetect ∧
  decodePhase 0b001 .pAtStride = .ok .uEol ∧
  decodePhase 0b010 .none = .ok .uRepeat ∧
  decodePhase 0b011 .nAtLeast3 = .ok .uAbs ∧
  decodePhase 0b011 .nAtMost2 = .ok .uShort ∧
  decodePhase 0b100 .none = .ok .uFin ∧
  decodeCommand 0x800000001 = .ok (.hStart 0) ∧
  decodeCommand 0xA0000012C = .ok (.hWriteCfg .width 300) ∧
  decodeCommand 0xB00000258 = .ok (.hWriteCfg .imageSize 600) ∧
  decodeCommand 0xC000004B0 = .ok (.hWriteCfg .outCap 1200) ∧
  decodeCommand 0x500000000 = .ok (.hRead 5) ∧
  decode (.resetLine true) = .ok (.hReset, [])

/-- A token's length follows from its header alone; it is even and lies between 2 and 258 (R88). -/
def Obligations.TokenLengthFollowsFromTheHeader : Prop :=
  ∀ (a b : Byte) (s : List Byte) (i : Instr) (rest : List Byte), decodeToken (a :: b :: s) = .ok (i, rest) →
    ∃ len, (a :: b :: s).length = len + rest.length ∧ rest = (a :: b :: s).drop len ∧
      len = (if a = 0 ∧ 3 ≤ b.toNat then 2 + b.toNat + b.toNat % 2 else 2) ∧
      len % 2 = 0 ∧ 2 ≤ len ∧ len ≤ 258

/-! ### A step -/

/-- A step runs the decoded operation: the core's by PHASE and guard (R97), the host's by its command word (R96), the
reset input's (R96), the reader's next token; what the step adds is only that the turn and the token are spent. The turns are the
model's own schedule of the two agents (log 1), the reader's turn is log 2, and that the move behind a reset is still to come
is log 13. -/
def Obligations.StepRunsTheDecodedOperation : Prop :=
  ∀ (s : State) (i : Instr) (turns : List Turn),
    (decode (.phase s.phase.code s.guard) = .ok (i, []) →
      step { s with turns := [] } = exec i { s with turns := [] } ∧
      step { s with turns := { reset := false, move := .core } :: turns } = exec i { s with turns := turns }) ∧
    (∀ word, decode (.command word) = .ok (i, []) →
      step { s with turns := { reset := false, move := .command word } :: turns } = exec i { s with turns := turns }) ∧
    (∀ move, step { s with turns := { reset := true, move := move } :: turns } =
      exec .hReset { s with turns := { reset := false, move := move } :: turns }) ∧
    (∀ bytes rest, s.reader.ended = false → decode (.stream bytes) = .ok (i, rest) →
      step { s with
        turns := { reset := false, move := .reader } :: turns, reader := { s.reader with rest := bytes } } =
      exec i { s with turns := turns, reader := { s.reader with rest := rest } })

/-- "Every other write (register 0 with bit 0 = 0; registers 1, 5, 6, 7) selects no command and changes nothing." -/
def Obligations.OtherWritesChangeNothing : Prop :=
  ∀ (s : State) (turns : List Turn) (reg : BitVec 3) (data : Word),
    (reg = 0 ∧ data.extractLsb' 0 1 = 0) ∨ reg = 1 ∨ reg = 5 ∨ reg = 6 ∨ reg = 7 →
    step { s with turns := { reset := false, move := .command (commandWord 1 reg data) } :: turns } =
      .next { s with turns := turns }

/-- In IDLE, DONE and ERROR the core is quiescent: its step changes nothing (R97, R189; the turn it spends is the model's,
log 1). -/
def Obligations.CoreIsQuiescentAtRest : Prop :=
  ∀ (s : State) (turns : List Turn), s.phase = .idle ∨ s.phase = .done ∨ s.phase = .error →
    step { s with turns := [] } = .next { s with turns := [] } ∧
    step { s with turns := { reset := false, move := .core } :: turns } = .next { s with turns := turns }

/-- Exactly one row of Table R97 applies in SCAN (with `P ≤ STRIDE`, R37), RUN, LIT and FIN, and none in IDLE, DONE and
ERROR: exactly one micro-operation is not turned away, and it is the one the decoder selects. That exec turns an operation away
that the core does not select, with notSelected, is the model's choice (log 9). -/
def Obligations.ExactlyOneMicroOperationIsEnabled : Prop :=
  ∀ s : State,
    (s.busy = true → (s.phase = .scan → s.p.toNat ≤ s.stride.toNat) →
      ∃ i ∈ microOperations, decode (.phase s.phase.code s.guard) = .ok (i, []) ∧
        exec i s ≠ .refused .notSelected ∧
        ∀ j ∈ microOperations, j ≠ i → exec j s = .refused .notSelected) ∧
    (s.busy = false → ∀ j ∈ microOperations, exec j s = .refused .notSelected)

/-! ### Reset and the host commands -/

/-- What reset leaves, for every piece of state the spec gives a reset value (Table R36): every register reads 0 and
PHASE is IDLE. -/
def Obligations.ResetLeavesTheTable : Prop :=
  State.reset.phase = .idle ∧ State.reset.status = 0 ∧ State.reset.width = 0 ∧ State.reset.imageSize = 0 ∧
    State.reset.outCap = 0 ∧ State.reset.encSize = 0 ∧ State.reset.errCode = 0 ∧ State.reset.busy = false ∧
    ∀ k, State.reset.register k = 0

/-- H_RESET (R184) is accepted in every phase and has priority over the move that would be next: the host-visible
registers become 0, PHASE becomes IDLE, the other working registers lose their values (what they held no longer matters),
and PIX, OUT and what lies outside the block are untouched. That a reset with BUSY = 0 takes no byte of OUT from what the
host can rely on is deduced from R36 and R230, and no sentence of R184 (log 23). -/
def Obligations.HResetFollowsItsPseudocode : Prop :=
  decode (.resetLine true) = .ok (.hReset, []) ∧
  ∀ s : State,
    (∃ t, exec .hReset s = .next t ∧ t.phase = .idle ∧ t.width = 0 ∧ t.imageSize = 0 ∧ t.outCap = 0 ∧
      t.encSize = 0 ∧ t.errCode = 0 ∧ t.status = 0 ∧ (∀ k, t.register k = 0) ∧ t.pix = s.pix ∧ t.out = s.out ∧
      s.SameOutside t ∧ (s.busy = false → t.settled = s.settled)) ∧
    (∀ stride rowoff p outptr rl val n,
      exec .hReset { s with stride := stride, rowoff := rowoff, p := p, outptr := outptr, rl := rl, val := val, n := n } =
        exec .hReset s) ∧
    ∀ move turns, ∃ t u, step { s with turns := { reset := true, move := move } :: turns } = .next t ∧
      exec .hReset s = .next u ∧ t = { u with turns := t.turns }

/-- H_START (R180): ignored while BUSY = 1 (R181); else the first check that fails, in the order of R208, ends the launch
in ERROR with its code (R202 to R205, R207), nothing read or written (R211); else the launch starts in SCAN. -/
def Obligations.HStartFollowsItsPseudocode : Prop :=
  ∀ (s : State) (ignored : BitVec 31),
    (s.busy = true → exec (.hStart ignored) s = .next s) ∧
    (s.busy = false → ∃ t, exec (.hStart ignored) s = .next t ∧
      s.SameConfig t ∧ s.SameOutside t ∧ t.pix = s.pix ∧ t.out = s.out ∧ t.encSize = 0 ∧
      t.rl = s.rl ∧ t.val = s.val ∧ t.n = s.n ∧ t.settled = s.settled ∧
      let w := s.width.toNat
      let size := s.imageSize.toNat
      let refusedWith (code : BitVec 4) :=
        t.phase = .error ∧ t.errCode = code ∧ t.status.toNat = code.toNat * 16 + 4 ∧
          t.stride = s.stride ∧ t.rowoff = s.rowoff ∧ t.p = s.p ∧ t.outptr = s.outptr
      if w = 0 then refusedWith 1
      else if size = 0 then refusedWith 2
      else if size % strideOf w ≠ 0 then refusedWith 3
      else if s.outCap.toNat < 2 * size then refusedWith 4
      else t.phase = .scan ∧ t.errCode = 0 ∧ t.status = 1 ∧ t.stride.toNat = strideOf w ∧ t.rowoff = 0 ∧ t.p = 0 ∧
        t.outptr = 0)

/-- H_WRITE_CFG (R182): a write of register 2, 3 or 4. With BUSY = 0 the register takes all 32 bits and nothing else
changes, STATUS and ENC_SIZE included; with BUSY = 1 nothing changes. Every other write but an H_START is no command. -/
def Obligations.HWriteCfgFollowsItsPseudocode : Prop :=
  ∀ (s : State) (data : Word),
    decode (.command (commandWord 1 2 data)) = .ok (.hWriteCfg .width data, []) ∧
    decode (.command (commandWord 1 3 data)) = .ok (.hWriteCfg .imageSize data, []) ∧
    decode (.command (commandWord 1 4 data)) = .ok (.hWriteCfg .outCap data, []) ∧
    (s.busy = false →
      exec (.hWriteCfg .width data) s = .next { s with width := data } ∧
      exec (.hWriteCfg .imageSize data) s = .next { s with imageSize := data } ∧
      exec (.hWriteCfg .outCap data) s = .next { s with outCap := data }) ∧
    (s.busy = true → ∀ reg, exec (.hWriteCfg reg data) s = .next s) ∧
    ∀ reg : BitVec 3, (reg = 0 ∧ data.extractLsb' 0 1 = 0) ∨ reg = 1 ∨ reg = 5 ∨ reg = 6 ∨ reg = 7 →
      decode (.command (commandWord 1 reg data)) = .error .noCommand

/-- H_READ (R183): the values of Table R183, in every phase, and nothing of the block changes. Where the value
goes is the model's own field (log 11). -/
def Obligations.HReadReturnsTheTable : Prop :=
  ∀ (s : State) (k : BitVec 3),
    exec (.hRead k) s = .next { s with
      rdata :=
        if k = 0 then 0
        else if k = 1 then
          BitVec.ofNat 32 (s.errCode.toNat * 16 + (if s.phase = .error then 4 else 0) + (if s.phase = .done then 2 else 0) +
            (if s.phase = .scan ∨ s.phase = .run ∨ s.phase = .lit ∨ s.phase = .fin then 1 else 0))
        else if k = 2 then s.width
        else if k = 3 then s.imageSize
        else if k = 4 then s.outCap
        else if k = 5 then s.encSize
        else 0 }

/-! ### The micro-operations -/

/-- U_DETECT (R120): VAL, RL and RUN for a run of 3 or more, else N and LIT; OUT and both pointers do not move. -/
def Obligations.UDetectFollowsItsPseudocode : Prop :=
  ∀ s : State, s.phase = .scan → s.p.toNat < s.stride.toNat →
    ∃ t, exec .uDetect s = .next t ∧
      s.SameConfig t ∧ s.SameResult t ∧ s.SameOutside t ∧ t.pix = s.pix ∧ t.out = s.out ∧ t.status = s.status ∧
      t.settled = s.settled ∧ t.stride = s.stride ∧ t.rowoff = s.rowoff ∧ t.p = s.p ∧ t.outptr = s.outptr ∧
      let rest := s.pix.readBytes (s.rowoff.toNat + s.p.toNat) (s.stride.toNat - s.p.toNat)
      (3 ≤ runLen rest → t.phase = .run ∧ t.val = s.pix.read (s.rowoff.toNat + s.p.toNat) ∧
        t.rl.toNat = runLen rest ∧ t.n = s.n) ∧
      (runLen rest < 3 → t.phase = .lit ∧ t.n.toNat = litLen rest ∧ t.rl = s.rl ∧ t.val = s.val)

/-- U_EOL (R121): `00 00` at OUTPTR, OUTPTR + 2, ROWOFF + STRIDE, P = 0, and SCAN or FIN by the loop test. -/
def Obligations.UEolFollowsItsPseudocode : Prop :=
  ∀ s : State, s.phase = .scan → s.p = s.stride → s.out.wf = true → s.outptr.toNat + 2 < 2 ^ 32 →
    s.rowoff.toNat + s.stride.toNat < 2 ^ 32 →
    ∃ t, exec .uEol s = .next t ∧
      s.out.Stored t.out s.outptr.toNat [0x00, 0x00] ∧ t.outptr.toNat = s.outptr.toNat + 2 ∧
      t.rowoff.toNat = s.rowoff.toNat + s.stride.toNat ∧ t.p = 0 ∧
      t.phase = (if s.rowoff.toNat + s.stride.toNat < s.imageSize.toNat then .scan else .fin) ∧
      s.SameConfig t ∧ s.SameResult t ∧ s.SameOutside t ∧ t.pix = s.pix ∧ t.status = s.status ∧
      t.settled = s.settled ∧ t.stride = s.stride ∧ t.rl = s.rl ∧ t.val = s.val ∧ t.n = s.n

/-- U_FIN (R122): `00 01` at OUTPTR − 2, ENC_SIZE = OUTPTR, BUSY = 0 and DONE = 1. From then on the host
can rely on `OUT[0 .. ENC_SIZE)` (R61; how that is held is the model's, log 23). -/
def Obligations.UFinFollowsItsPseudocode : Prop :=
  ∀ s : State, s.phase = .fin → s.out.wf = true → 2 ≤ s.outptr.toNat →
    ∃ t, exec .uFin s = .next t ∧
      s.out.Stored t.out (s.outptr.toNat - 2) [0x00, 0x01] ∧ t.encSize = s.outptr ∧ t.phase = .done ∧
      t.busy = false ∧ t.phase.isDone = true ∧
      s.SameConfig t ∧ t.errCode = s.errCode ∧ s.SameOutside t ∧ t.pix = s.pix ∧
      t.settled = s.settled.map (fun spans => (0, s.outptr.toNat) :: spans) ∧ t.rl = s.rl ∧ t.val = s.val ∧ t.n = s.n

/-- U_REPEAT (R151): the token `(c, VAL)` with `c = min(RL, 255)` at OUTPTR, OUTPTR + 2, P + c, RL − c, and SCAN when the
run is spent. -/
def Obligations.URepeatFollowsItsPseudocode : Prop :=
  ∀ s : State, s.phase = .run → s.out.wf = true → s.outptr.toNat + 2 < 2 ^ 32 →
    s.p.toNat + min s.rl.toNat 255 < 2 ^ 32 →
    ∃ t, exec .uRepeat s = .next t ∧
      s.out.Stored t.out s.outptr.toNat [BitVec.ofNat 8 (min s.rl.toNat 255), s.val] ∧
      t.outptr.toNat = s.outptr.toNat + 2 ∧ t.p.toNat = s.p.toNat + min s.rl.toNat 255 ∧
      (s.rl.toNat ≤ 255 → t.phase = .scan) ∧
      (255 < s.rl.toNat → t.phase = .run ∧ t.rl.toNat = s.rl.toNat - 255 ∧ t.val = s.val) ∧
      s.SameConfig t ∧ s.SameResult t ∧ s.SameOutside t ∧ t.pix = s.pix ∧ t.status = s.status ∧
      t.settled = s.settled ∧ t.stride = s.stride ∧ t.rowoff = s.rowoff ∧ t.n = s.n

/-- U_ABS (R166): the token `00 c`, `c` source bytes and the pad if `c` is odd, with `c = min(N, 255)`, at OUTPTR; OUTPTR
past it, P + c, N − c, and SCAN when the stretch is spent. -/
def Obligations.UAbsFollowsItsPseudocode : Prop :=
  ∀ s : State, s.phase = .lit → 3 ≤ s.n.toNat → s.out.wf = true →
    let c := min s.n.toNat 255
    s.outptr.toNat + (2 + c + c % 2) < 2 ^ 32 → s.p.toNat + c < 2 ^ 32 →
    ∃ t, exec .uAbs s = .next t ∧
      s.out.Stored t.out s.outptr.toNat
        ([0x00, BitVec.ofNat 8 c] ++ s.pix.readBytes (s.rowoff.toNat + s.p.toNat) c ++ (if c % 2 = 1 then [0x00] else [])) ∧
      t.outptr.toNat = s.outptr.toNat + (2 + c + c % 2) ∧ t.p.toNat = s.p.toNat + c ∧
      (s.n.toNat ≤ 255 → t.phase = .scan) ∧
      (255 < s.n.toNat → t.phase = .lit ∧ t.n.toNat = s.n.toNat - 255) ∧
      s.SameConfig t ∧ s.SameResult t ∧ s.SameOutside t ∧ t.pix = s.pix ∧ t.status = s.status ∧
      t.settled = s.settled ∧ t.stride = s.stride ∧ t.rowoff = s.rowoff ∧ t.rl = s.rl ∧ t.val = s.val

/-- U_SHORT (R167): `01 b` with the byte at the source pointer at OUTPTR, OUTPTR + 2, P + 1, N − 1, and SCAN when N
reaches 0. -/
def Obligations.UShortFollowsItsPseudocode : Prop :=
  ∀ s : State, s.phase = .lit → s.n.toNat = 1 ∨ s.n.toNat = 2 → s.out.wf = true → s.outptr.toNat + 2 < 2 ^ 32 →
    s.p.toNat + 1 < 2 ^ 32 →
    ∃ t, exec .uShort s = .next t ∧
      s.out.Stored t.out s.outptr.toNat [0x01, s.pix.read (s.rowoff.toNat + s.p.toNat)] ∧
      t.outptr.toNat = s.outptr.toNat + 2 ∧ t.p.toNat = s.p.toNat + 1 ∧
      (s.n.toNat = 1 → t.phase = .scan) ∧
      (s.n.toNat = 2 → t.phase = .lit ∧ t.n.toNat = 1) ∧
      s.SameConfig t ∧ s.SameResult t ∧ s.SameOutside t ∧ t.pix = s.pix ∧ t.status = s.status ∧
      t.settled = s.settled ∧ t.stride = s.stride ∧ t.rowoff = s.rowoff ∧ t.rl = s.rl ∧ t.val = s.val

/-- What no micro-operation does, in any state: write PIX, a configuration register or ERR_CODE, or touch the reader, the
host's read value or the turns. Only U_FIN writes ENC_SIZE (R26, R54, R206) and settles bytes for the host (log 23). No
other stores below OUTPTR, and U_FIN stores there at OUTPTR − 2 and OUTPTR − 1 only (R31, R54, R122). -/
def Obligations.MicroOperationsLeaveTheRestAlone : Prop :=
  ∀ (s t : State) (i : Instr), i ∈ microOperations → exec i s = .next t →
    s.SameConfig t ∧ s.SameOutside t ∧ t.pix = s.pix ∧ t.errCode = s.errCode ∧
      (i ≠ .uFin → t.encSize = s.encSize ∧ t.settled = s.settled) ∧
      (i = .uDetect → t.out = s.out) ∧
      (s.out.wf = true → ∀ a, a + (if i = .uFin then 2 else 0) < s.outptr.toNat → t.out.read a = s.out.read a)

/-- The phase machine of Table R123, every row with its condition. -/
def Obligations.PhaseMovesAreTheTable : Prop :=
  ∀ s t : State,
    (exec .uDetect s = .next t → s.phase = .scan ∧ s.p.toNat < s.stride.toNat ∧
      t.phase = (if 3 ≤ runLen s.rowRest then .run else .lit)) ∧
    (exec .uEol s = .next t → s.phase = .scan ∧ s.p = s.stride ∧
      t.phase = (if s.rowoff.toNat + s.stride.toNat < s.imageSize.toNat then .scan else .fin)) ∧
    (exec .uRepeat s = .next t → s.phase = .run ∧ t.phase = (if 255 < s.rl.toNat then .run else .scan)) ∧
    (exec .uAbs s = .next t → s.phase = .lit ∧ 3 ≤ s.n.toNat ∧
      t.phase = (if 255 < s.n.toNat then .lit else .scan)) ∧
    (exec .uShort s = .next t → s.phase = .lit ∧ s.n.toNat ≤ 2 ∧
      (s.n.toNat = 2 → t.phase = .lit) ∧ (s.n.toNat = 1 → t.phase = .scan)) ∧
    (exec .uFin s = .next t → s.phase = .fin ∧ t.phase = .done) ∧
    (∀ g, exec (.hStart g) s = .next t →
      if s.busy = true then t = s
      else t.phase = (if (checkLaunch s.width.toNat s.imageSize.toNat s.outCap.toNat).isSome then .error else .scan)) ∧
    (exec .hReset s = .next t → t.phase = .idle)

/-! ### The tokens, as the reference decoder takes them -/

/-- T_REPEAT (R82) stands for `count` bytes of `value`; nothing but the decoded bytes changes. The reader that
holds them is the model's own (log 2). -/
def Obligations.TRepeatStandsForItsRun : Prop :=
  ∀ (s : State) (count value : Byte), s.reader.ended = false →
    exec (.tRepeat count value) s =
      .next { s with reader := { s.reader with out := s.reader.out ++ List.replicate count.toNat value } }

/-- T_ABS (R85) stands for its payload; nothing but the decoded bytes changes (the reader: log 2). -/
def Obligations.TAbsStandsForItsPayload : Prop :=
  ∀ (s : State) (payload : List Byte), s.reader.ended = false →
    exec (.tAbs payload) s = .next { s with reader := { s.reader with out := s.reader.out ++ payload } }

/-- T_EOL (R83) and T_EOB (R84) stand for no byte; each is one marker, and after T_EOB the stream has ended (the
reader: log 2). -/
def Obligations.MarkersStandForNoByte : Prop :=
  ∀ s : State, s.reader.ended = false →
    exec .tEol s = .next { s with reader := { s.reader with markers := s.reader.markers + 1 } } ∧
    (s.reader.rest = [] →
      exec .tEob s = .next { s with reader := { s.reader with markers := s.reader.markers + 1, ended := true } })

/-- The reserved token T_DELTA is refused (R86, R92; it stops the model's reader, log 2). -/
def Obligations.TDeltaIsRefused : Prop := ∀ s : State, exec .tDelta s = .refused .deltaToken

/-- Bytes after the end-of-bitmap marker are refused (R92; the reader: log 2). -/
def Obligations.NothingFollowsTheEndOfBitmap : Prop :=
  ∀ (s : State) (i : Instr), isToken i = true → i ≠ .tDelta →
    s.reader.ended = true ∨ (i = .tEob ∧ s.reader.rest ≠ []) → exec i s = .refused .afterEndOfBitmap

/-- The reader is outside the block (R5, R92; the reader is the model's own, log 2): a token touches the reader alone,
and no other operation reads or writes it. -/
def Obligations.ReaderIsOutsideTheBlock : Prop :=
  ∀ (s t : State) (i : Instr), exec i s = .next t →
    (isToken i = true → t = { s with reader := t.reader }) ∧
    (isToken i = false → t.reader = s.reader ∧ ∀ r, exec i { s with reader := r } = .next { t with reader := r })

/-- The reader's turns compute `Decode` (R92): from a whole stream they end with its bytes and markers, or are refused
where `Decode` refuses. The reader and its turns are the model's own (log 1, log 2). -/
def Obligations.ReaderComputesDecode : Prop :=
  ∀ (s : State) (bytes : List Byte), s.reader = { rest := bytes, out := [], markers := 0, ended := false } →
    s.turns = List.replicate (bytes.length + 1) { reset := false, move := .reader } →
    match decodeStream bytes with
    | some (out, markers) =>
      s.Reaches (bytes.length + 1)
        { s with turns := [], reader := { rest := [], out := out, markers := markers, ended := true } }
    | none => ∃ r, Host.Core.run Sys2Proof.core (bytes.length + 1) s = .refused r

/-! ### The pure functions -/

/-- RunLen is the largest length of equal bytes from the position on, within the row (R140, R142). -/
def Obligations.RunLenIsTheLongestRun : Prop :=
  ∀ (row : List Byte) (p : Nat), p < row.length →
    let len := runLen (row.drop p)
    1 ≤ len ∧ len ≤ row.length - p ∧ (∀ i < len, row[p + i]? = row[p]?) ∧
      ∀ k, k ≤ row.length - p → (∀ i < k, row[p + i]? = row[p]?) → k ≤ len

/-- LitLen is the distance to the least later position with RunLen ≥ 3, or to the row's end (R160). -/
def Obligations.LitLenIsTheDistanceToTheRun : Prop :=
  ∀ (row : List Byte) (p : Nat), p < row.length → runLen (row.drop p) < 3 →
    let r := p + litLen (row.drop p)
    p < r ∧ r ≤ row.length ∧ (∀ q, p < q → q < r → runLen (row.drop q) < 3) ∧
      (r < row.length → 3 ≤ runLen (row.drop r))

/-- "The three definitions, least `r` with `RunLen ≥ 3` (rule R160), run-to-run hopping (Pseudocode R160) and the byte
scan (Pseudocode R161), agree whenever `RunLen(row, p) < 3`". -/
def Obligations.TheThreeLookAheadsAgree : Prop :=
  ∀ (row : List Byte) (p : Nat), p < row.length → runLen (row.drop p) < 3 →
    litLenHopping (row.drop p) = litLen (row.drop p) ∧ litLenBytewise (row.drop p) = litLen (row.drop p)

/-- A literal stretch never contains three consecutive equal bytes, and what follows it in the row is a run of 3 or more
(R162). -/
def Obligations.LiteralStretchHoldsNoThreeEqual : Prop :=
  ∀ (row : List Byte), runLen row < 3 →
    (∀ i, i + 2 < litLen row → ¬ (row[i]? = row[i + 1]? ∧ row[i + 1]? = row[i + 2]?)) ∧
      (litLen row < row.length → 3 ≤ runLen (row.drop (litLen row)))

/-- EncRun in its recursive form, which the machine executes, and its length `2 · ceil(L / 255)` (R150). -/
def Obligations.EncRunPeelsChunks : Prop :=
  ∀ (len : Nat) (v : Byte), encRun 0 v = [] ∧ (encRun len v).length = 2 * ((len + 254) / 255) ∧
    (1 ≤ len → encRun len v = [BitVec.ofNat 8 (min len 255), v] ++ encRun (len - min len 255) v)

/-- "the sum of counts across emitted pairs exactly equals `L`; no pair has count 0", every count at most 255 (R152). -/
def Obligations.RunCountsSumToTheRun : Prop :=
  ∀ (len : Nat) (v : Byte), ∃ counts : List Nat,
    encRun len v = counts.flatMap (fun c => [BitVec.ofNat 8 c, v]) ∧ (∀ c ∈ counts, 1 ≤ c ∧ c ≤ 255) ∧
      counts.sum = len

/-- EncLit in its recursive form, which the machine executes, and its length (R165). -/
def Obligations.EncLitPeelsChunks : Prop :=
  ∀ (b : List Byte),
    (3 ≤ b.length → encLit b = absBytes (b.take (min b.length 255)) ++ encLit (b.drop (min b.length 255))) ∧
    (∀ x rest, b = x :: rest → b.length < 3 → encLit b = [0x01, x] ++ encLit rest) ∧ encLit [] = [] ∧
    (b.length < 3 → (encLit b).length = 2 * b.length) ∧
    (3 ≤ b.length → (encLit b).length =
      258 * (b.length / 255) +
        (if b.length % 255 < 3 then 2 * (b.length % 255)
         else 2 + b.length % 255 + b.length % 255 % 2))

/-- Stride is the width rounded up to a multiple of 4, as a natural number (R110). -/
def Obligations.StrideRoundsUpToFour : Prop :=
  ∀ w : Nat, strideOf w = (w + 3) / 4 * 4 ∧ strideOf w % 4 = 0 ∧ w ≤ strideOf w ∧ strideOf w ≤ w + 3 ∧
    (1 ≤ w → 4 ≤ strideOf w) ∧ (strideOf w = 2 ^ 32 ↔ 2 ^ 32 - 3 ≤ w ∧ w ≤ 2 ^ 32)

/-- Each row whose length is a multiple of 4 costs, with its marker, at most twice its bytes (R247, clause iii). -/
def Obligations.RowWithMarkerCostsAtMostTwice : Prop :=
  ∀ row : List Byte, row ≠ [] → row.length % 4 = 0 → (encRow row).length + 2 ≤ 2 * row.length

/-- The stream of an accepted image ends `00 01`, is even, at least `4 · R` and at most `2 · imageSize` long (R117, R247,
R248). -/
def Obligations.EncodedSizeIsBounded : Prop :=
  ∀ (pix : Memory) (width imageSize cap : Nat) (bytes : List Byte),
    encodeImage pix width imageSize cap = .ok bytes →
      bytes.length % 2 = 0 ∧ 4 ≤ bytes.length ∧ 4 * (imageSize / strideOf width) ≤ bytes.length ∧
        bytes.length ≤ 2 * imageSize ∧ 2 * imageSize ≤ cap ∧ bytes.drop (bytes.length - 2) = [0x00, 0x01]

/-- "`Encode(pix, w1, size, cap) = Encode(pix, w2, size, cap)` whenever `Stride(w1) = Stride(w2)`" (R126). -/
def Obligations.WidthMattersOnlyThroughTheStride : Prop :=
  ∀ (pix : Memory) (w1 w2 size cap : Nat), strideOf w1 = strideOf w2 →
    encodeImage pix w1 size cap = encodeImage pix w2 size cap

/-- The round trip (R187 c) and row termination (R124): `Decode` of the stream gives the pixel bytes back, row padding
included, and one marker per row. -/
def Obligations.DecodeOfTheStreamIsTheImage : Prop :=
  ∀ (pix : Memory) (width imageSize cap : Nat) (bytes : List Byte),
    encodeImage pix width imageSize cap = .ok bytes →
      decodeStream bytes = some (pix.readBytes 0 imageSize, imageSize / strideOf width)

/-! ### Invariants -/

/-- Every step keeps the canonical form of both buffers, the model's way to hold them (log 5). -/
def Obligations.BuffersStayCanonical : Prop :=
  ∀ s t : State, s.BuffersWf → step s = .next t → t.BuffersWf

/-- The buffers are in canonical form, no launch is in progress and STATUS is in order after reset: the invariants hold
there. -/
def Obligations.ResetMeetsTheInvariants : Prop :=
  State.reset.BuffersWf ∧ State.reset.StatusOk ∧ State.reset.LaunchOk

/-- Every step keeps: ERR_CODE is nonzero exactly when ERROR = 1, and then 1 to 4; ENC_SIZE is 0 unless DONE = 1 (R26,
R33, R201). -/
def Obligations.StatusStaysInOrder : Prop :=
  ∀ s t : State, s.StatusOk → step s = .next t → t.StatusOk

/-- "The only values STATUS ever takes are 0x00 (IDLE), 0x01 (BUSY), 0x02 (DONE), 0x14, 0x24, 0x34 and 0x44 (ERROR with
code 1 to 4)." (R183), in every state that meets the invariant above. -/
def Obligations.StatusTakesSevenValues : Prop :=
  ∀ s : State, s.StatusOk →
    (s.phase = .idle → s.status = 0x00) ∧ (s.busy = true → s.status = 0x01) ∧ (s.phase = .done → s.status = 0x02) ∧
      (s.phase = .error → s.status ∈ ([0x14, 0x24, 0x34, 0x44] : List Word))

/-- The invariant of R37 is kept by every step, whichever agent moves. -/
def Obligations.LaunchInvariantIsKept : Prop :=
  ∀ s t : State, s.BuffersWf → s.LaunchOk → step s = .next t → t.LaunchOk

/-- No working register outside its live phases matters (R30): two states that differ only there take the same step, to
states that differ only there. A dead register holds a free value here (log 3). -/
def Obligations.DeadRegistersDoNotMatter : Prop :=
  ∀ s s' : State, s.SameLive s' →
    (∀ t, step s = .next t → ∃ t', step s' = .next t' ∧ t.SameLive t') ∧
    (∀ r, step s = .fault r → step s' = .fault r) ∧ (∀ r, step s = .refused r → step s' = .refused r)

/-- There is no other fault (R206): where the invariant of R37 holds, no micro-operation, host command or reset ever
stops the machine. -/
def Obligations.BlockNeverStops : Prop :=
  ∀ s : State, s.LaunchOk → s.BlockTurn → ∃ t, step s = .next t

/-- While BUSY = 1 no step changes PIX (R236, R53), and no step but a reset changes WIDTH, IMAGE_SIZE or OUT_CAP (R182).
A host store to PIX is refused then (log 14). -/
def Obligations.LaunchInputsAreFixed : Prop :=
  ∀ s t : State, s.busy = true → step s = .next t →
    t.pix = s.pix ∧ ((∀ turn ∈ s.turns.head?, turn.reset = false) → s.SameConfig t)

/-! ### Launches -/

/-- U_FIN ends every launch with the value of `Encode` (R125, R187 a), whatever host commands came between its
micro-operations: the invariant of R37 is kept by all of them. From then on the host can rely on the stream's bytes (R61; log 23). -/
def Obligations.FinishedLaunchHoldsTheStream : Prop :=
  ∀ s : State, s.BuffersWf → s.LaunchOk → s.phase = .fin →
    ∃ t bytes, exec .uFin s = .next t ∧ s.encoded = .ok bytes ∧ t.phase = .done ∧ t.encSize.toNat = bytes.length ∧
      t.out.readBytes 0 t.encSize.toNat = bytes ∧ ∀ a < t.encSize.toNat, t.outKnown a = true

/-- The machine computes `Encode` (R125): from any state with BUSY = 0, an H_START and the core's micro-operations end in
ERROR with the code of `Encode`, OUT unchanged and ENC_SIZE = 0, or in DONE with its bytes in OUT, their number in
ENC_SIZE and the rest of OUT unchanged (R249), after at most `2 · IMAGE_SIZE + R + 1` micro-operations (R246), BUSY = 1
until then (R188). The core runs on once the turns are spent (log 1). What the host can rely on in OUT
is then the stream and what it could rely on before (log 23). -/
def Obligations.LaunchComputesEncode : Prop :=
  ∀ (s : State) (ignored : BitVec 31), s.busy = false → s.BuffersWf →
    s.turns = [{ reset := false, move := .command (commandWord 1 0 (ignored ++ (1 : BitVec 1))) }] →
    match s.encoded with
    | .error code =>
      ∃ t, s.Reaches 1 t ∧ t.phase = .error ∧ t.errCode = code ∧ t.encSize = 0 ∧ t.out = s.out ∧ t.pix = s.pix ∧
        t.settled = s.settled ∧ s.SameConfig t
    | .ok bytes =>
      ∃ k t, k ≤ 2 * s.imageSize.toNat + s.imageSize.toNat / strideOf s.width.toNat + 1 ∧
        s.Reaches (1 + k) t ∧ t.phase = .done ∧ t.errCode = 0 ∧ t.encSize.toNat = bytes.length ∧
        s.out.Stored t.out 0 bytes ∧ t.pix = s.pix ∧ s.SameConfig t ∧
        (∀ a, t.outKnown a = true ↔ a < bytes.length ∨ s.outKnown a = true) ∧
        ∀ j u, 1 ≤ j → j ≤ k → s.Reaches j u → u.busy = true

/-! ### The host and the buffers -/

/-- The host's accesses to PIX and OUT (Table R189, R236, R238; the moves are the model's, log 14): stores only while
BUSY = 0, a violated duty otherwise, after which the byte is known; a read of PIX in every phase; a read of OUT gives its
contents where the host can rely on them, and else one and the same value whatever OUT holds and whichever index is read. -/
def Obligations.HostAccessesFollowTheirDuties : Prop :=
  ∀ (s : State) (turns : List Turn) (value : Byte),
    let at' (m : Move) : State := { s with turns := { reset := false, move := m } :: turns }
    (s.busy = true → ∀ index,
      step (at' (.storePix index value)) = .refused .pixWrittenWhileBusy ∧
      step (at' (.storeOut index value)) = .refused .outWrittenWhileBusy) ∧
    (s.busy = false → s.BuffersWf → ∀ index,
      (∃ t, step (at' (.storePix index value)) = .next t ∧ s.pix.Stored t.pix index.toNat [value] ∧ t.out = s.out ∧
        t.settled = s.settled ∧ s.SameRegisters t) ∧
      (∃ t, step (at' (.storeOut index value)) = .next t ∧ s.out.Stored t.out index.toNat [value] ∧ t.pix = s.pix ∧
        (∀ a, t.outKnown a = true ↔ a = index.toNat ∨ s.outKnown a = true) ∧ s.SameRegisters t)) ∧
    (∀ index, ∃ t, step (at' (.loadOut index)) = .next t ∧
      (s.outKnown index.toNat = true → t.rdata = (s.out.read index.toNat).setWidth 32) ∧
      t.pix = s.pix ∧ t.out = s.out ∧ t.settled = s.settled ∧ s.SameRegisters t) ∧
    (∃ v, ∀ index out, s.outKnown index.toNat = false →
      ∃ t, step { at' (.loadOut index) with out := out } = .next t ∧ t.rdata = v) ∧
    ∀ index, ∃ t, step (at' (.loadPix index)) = .next t ∧ t.rdata = (s.pix.read index.toNat).setWidth 32 ∧
      t.pix = s.pix ∧ t.out = s.out ∧ t.settled = s.settled ∧ s.SameRegisters t

/-- Reset during a launch (R231): with BUSY = 1, H_RESET leaves the reset state's registers and the bytes of OUT where they
are, with no DONE, no ERROR and ENC_SIZE 0; the host can rely on no byte of OUT from then on: whatever OUT holds, a read of
any index gives one and the same value, a free one (U7; that the host's view is held beside OUT is the model's, log 23). -/
def Obligations.ResetDuringALaunchLeavesOutUndefined : Prop :=
  ∀ s : State, s.busy = true → ∃ t v, exec .hReset s = .next t ∧ t.phase = .idle ∧ t.status = 0 ∧
    (∀ k, t.register k = 0) ∧ t.out = s.out ∧ (∀ a, t.outKnown a = false) ∧
    ∀ index out turns, ∃ u,
      step { t with out := out, turns := { reset := false, move := .loadOut index } :: turns } = .next u ∧ u.rdata = v

/-- While BUSY stays 0 no step takes a byte of OUT from what the host can rely on, whichever agent moves, a reset between
launches included (R61, R230; that the host's view is held beside OUT is the model's, log 23). -/
def Obligations.KnownBytesStayKnown : Prop :=
  ∀ (s t : State) (a : Nat), step s = .next t → s.outKnown a = true → t.busy = false → t.outKnown a = true
end

