-- ==== Sys2Proof/Laws/Memory.lean ====
section
/-! SUPPORT. The laws of the buffers: reads after writes, runs of bytes, and that every operation keeps the canonical
form. -/

namespace Sys2Proof.Machine

variable {m : Memory} {a b low k : Nat} {v : Byte} {bytes : List Byte}

@[simp] theorem Memory.read_nil : Memory.read [] a = 0 := by simp [Memory.read]

@[simp] theorem Memory.wfFrom_nil : Memory.wfFrom low [] = true := by simp [Memory.wfFrom]

theorem Memory.wfFrom_cons : Memory.wfFrom low ((b, v) :: m) = true ↔ low ≤ b ∧ v ≠ 0 ∧ m.wfFrom (b + 1) = true := by
  simp [Memory.wfFrom, and_assoc]

theorem Memory.wfFrom_mono (h : m.wfFrom low = true) (hk : k ≤ low) : m.wfFrom k = true := by
  cases m with
  | nil => simp
  | cons c m =>
    obtain ⟨b, v⟩ := c
    rw [Memory.wfFrom_cons] at h ⊢
    exact ⟨hk.trans h.1, h.2⟩

/-- Below its lower bound a canonical buffer lists nothing. -/
theorem Memory.read_of_lt (h : m.wfFrom low = true) (ha : a < low) : m.read a = 0 := by
  cases m with
  | nil => simp
  | cons c m =>
    obtain ⟨b, v⟩ := c
    rw [Memory.wfFrom_cons] at h
    have hb : a < b := lt_of_lt_of_le ha h.1
    simp [Memory.read, hb]

/-- A store keeps the canonical form. -/
theorem Memory.wfFrom_write (h : m.wfFrom low = true) (ha : low ≤ a) : (m.write a v).wfFrom low = true := by
  induction m generalizing low with
  | nil =>
    simp only [Memory.write]
    split
    · simp
    · rename_i hv
      exact Memory.wfFrom_cons.mpr ⟨ha, hv, Memory.wfFrom_nil⟩
  | cons c m ih =>
    obtain ⟨b, w⟩ := c
    have hc := Memory.wfFrom_cons.mp h
    simp only [Memory.write]
    split
    · split
      · exact h
      · rename_i hab hv
        exact Memory.wfFrom_cons.mpr ⟨ha, hv, Memory.wfFrom_cons.mpr ⟨hab, hc.2⟩⟩
    · split
      · rename_i hab
        subst hab
        split
        · exact Memory.wfFrom_mono hc.2.2 (by omega)
        · rename_i hv
          exact Memory.wfFrom_cons.mpr ⟨ha, hv, hc.2.2⟩
      · exact Memory.wfFrom_cons.mpr ⟨hc.1, hc.2.1, ih hc.2.2 (by omega)⟩

theorem Memory.wf_write (h : m.wf = true) : (m.write a v).wf = true := Memory.wfFrom_write h (Nat.zero_le a)

/-- A read after a store: the byte stored at its index, every other byte as before. -/
theorem Memory.read_write (h : m.wfFrom low = true) : (m.write a v).read b = if b = a then v else m.read b := by
  induction m generalizing low with
  | nil =>
    simp only [Memory.write, Memory.read_nil]
    split
    · simp [*]
    · simp only [Memory.read]; grind
  | cons c m ih =>
    obtain ⟨c, w⟩ := c
    have hc := Memory.wfFrom_cons.mp h
    have hlow : ∀ i, i ≤ c → Memory.read m i = 0 := fun i hi => Memory.read_of_lt hc.2.2 (by omega)
    simp only [Memory.write]
    split
    · split <;> simp only [Memory.read] <;> grind
    · split
      · split
        · simp only [Memory.read]; grind
        · simp only [Memory.read]; grind
      · simp only [Memory.read, ih hc.2.2]; grind

theorem Memory.wf_writeBytes (h : m.wf = true) : (m.writeBytes a bytes).wf = true := by
  induction bytes generalizing m a with
  | nil => simpa [Memory.writeBytes]
  | cons b bytes ih => exact ih (Memory.wf_write h)

/-- A read after the store of a byte sequence. -/
theorem Memory.read_writeBytes (h : m.wf = true) :
    (m.writeBytes a bytes).read b = if hb : a ≤ b ∧ b - a < bytes.length then bytes[b - a]'hb.2 else m.read b := by
  induction bytes generalizing m a with
  | nil => simp [Memory.writeBytes]
  | cons x bytes ih =>
    rw [Memory.writeBytes, ih (Memory.wf_write h), Memory.read_write h]
    rcases Nat.lt_trichotomy b a with hlt | heq | hgt
    · have h1 : ¬ (a + 1 ≤ b) := by omega
      have h2 : ¬ (a ≤ b) := by omega
      simp [h1, h2]; omega
    · subst heq; simp
    · have h1 : a + 1 ≤ b := hgt
      have h2 : a ≤ b := by omega
      have h3 : b ≠ a := by omega
      have h4 : b - a = (b - (a + 1)) + 1 := by omega
      simp only [h1, h2, h3, h4, true_and, List.length_cons, Nat.add_lt_add_iff_right, if_false,
        List.getElem_cons_succ]

theorem Memory.read_writeBytes_outside (h : m.wf = true) (hb : b < a ∨ a + bytes.length ≤ b) :
    (m.writeBytes a bytes).read b = m.read b := by
  rw [Memory.read_writeBytes h, dif_neg (by omega)]

@[simp] theorem Memory.readBytes_length : (m.readBytes a k).length = k := by
  induction k generalizing a with
  | zero => rfl
  | succ k ih => simp [Memory.readBytes, ih]

theorem Memory.readBytes_getElem {i : Nat} (hi : i < (m.readBytes a k).length) :
    (m.readBytes a k)[i] = m.read (a + i) := by
  induction k generalizing a i with
  | zero => simp [Memory.readBytes] at hi
  | succ k ih =>
    cases i with
    | zero => simp [Memory.readBytes]
    | succ i =>
      simp only [Memory.readBytes, List.getElem_cons_succ]
      rw [ih]
      congr 1; omega

theorem Memory.readBytes_congr {m' : Memory} (h : ∀ i, a ≤ i → i < a + k → m'.read i = m.read i) :
    m'.readBytes a k = m.readBytes a k := by
  apply List.ext_getElem (by simp)
  intro i h1 h2
  rw [Memory.readBytes_getElem, Memory.readBytes_getElem]
  simp at h1
  exact h _ (by omega) (by omega)

theorem Memory.readBytes_add {l : Nat} : m.readBytes a (k + l) = m.readBytes a k ++ m.readBytes (a + k) l := by
  induction k generalizing a with
  | zero => simp [Memory.readBytes]
  | succ k ih =>
    rw [Nat.add_right_comm k 1 l]
    simp only [Memory.readBytes, ih, List.cons_append]
    congr 3; omega

theorem Memory.readBytes_take {l : Nat} (h : l ≤ k) : (m.readBytes a k).take l = m.readBytes a l := by
  obtain ⟨j, rfl⟩ := Nat.exists_eq_add_of_le h
  rw [Memory.readBytes_add, List.take_left' (by simp)]

theorem Memory.readBytes_drop {l : Nat} (h : l ≤ k) : (m.readBytes a k).drop l = m.readBytes (a + l) (k - l) := by
  obtain ⟨j, rfl⟩ := Nat.exists_eq_add_of_le h
  rw [Memory.readBytes_add, List.drop_left' (by simp), Nat.add_sub_cancel_left]

/-- What stands in a buffer after the store of a byte sequence just behind what was there. -/
theorem Memory.readBytes_writeBytes (h : m.wf = true) :
    (m.writeBytes a bytes).readBytes a bytes.length = bytes := by
  apply List.ext_getElem (by simp)
  intro i h1 h2
  rw [Memory.readBytes_getElem, Memory.read_writeBytes h, dif_pos (by omega)]
  simp

end Sys2Proof.Machine
end

