-- ==== Sys2Proof/Laws/State.lean ====
section
/-! SUPPORT. One lemma per field for each shared update of the state, true by rfl. -/

namespace Sys2Proof.Machine

variable (s : State)


/-! ### `State.emit` -/

@[simp] theorem State.emit_width (bytes : List Byte) : (s.emit bytes).width = s.width := rfl
@[simp] theorem State.emit_imageSize (bytes : List Byte) : (s.emit bytes).imageSize = s.imageSize := rfl
@[simp] theorem State.emit_outCap (bytes : List Byte) : (s.emit bytes).outCap = s.outCap := rfl
@[simp] theorem State.emit_encSize (bytes : List Byte) : (s.emit bytes).encSize = s.encSize := rfl
@[simp] theorem State.emit_errCode (bytes : List Byte) : (s.emit bytes).errCode = s.errCode := rfl
@[simp] theorem State.emit_phase (bytes : List Byte) : (s.emit bytes).phase = s.phase := rfl
@[simp] theorem State.emit_stride (bytes : List Byte) : (s.emit bytes).stride = s.stride := rfl
@[simp] theorem State.emit_rowoff (bytes : List Byte) : (s.emit bytes).rowoff = s.rowoff := rfl
@[simp] theorem State.emit_p (bytes : List Byte) : (s.emit bytes).p = s.p := rfl
@[simp] theorem State.emit_outptr (bytes : List Byte) : (s.emit bytes).outptr = s.fit 0 (s.outptr.toNat + bytes.length) := rfl
@[simp] theorem State.emit_rl (bytes : List Byte) : (s.emit bytes).rl = s.rl := rfl
@[simp] theorem State.emit_val (bytes : List Byte) : (s.emit bytes).val = s.val := rfl
@[simp] theorem State.emit_n (bytes : List Byte) : (s.emit bytes).n = s.n := rfl
@[simp] theorem State.emit_pix (bytes : List Byte) : (s.emit bytes).pix = s.pix := rfl
@[simp] theorem State.emit_out (bytes : List Byte) : (s.emit bytes).out = s.out.writeBytes s.outptr.toNat bytes := rfl
@[simp] theorem State.emit_fresh (bytes : List Byte) : (s.emit bytes).fresh = s.fresh := rfl
@[simp] theorem State.emit_rdata (bytes : List Byte) : (s.emit bytes).rdata = s.rdata := rfl
@[simp] theorem State.emit_turns (bytes : List Byte) : (s.emit bytes).turns = s.turns := rfl
@[simp] theorem State.emit_reader (bytes : List Byte) : (s.emit bytes).reader = s.reader := rfl
@[simp] theorem State.emit_settled (bytes : List Byte) : (s.emit bytes).settled = s.settled := rfl

/-! ### `State.toPhase` -/

@[simp] theorem State.toPhase_width (ph : Phase) : (s.toPhase ph).width = s.width := rfl
@[simp] theorem State.toPhase_imageSize (ph : Phase) : (s.toPhase ph).imageSize = s.imageSize := rfl
@[simp] theorem State.toPhase_outCap (ph : Phase) : (s.toPhase ph).outCap = s.outCap := rfl
@[simp] theorem State.toPhase_encSize (ph : Phase) : (s.toPhase ph).encSize = s.encSize := rfl
@[simp] theorem State.toPhase_errCode (ph : Phase) : (s.toPhase ph).errCode = s.errCode := rfl
@[simp] theorem State.toPhase_phase (ph : Phase) : (s.toPhase ph).phase = ph := rfl
@[simp] theorem State.toPhase_stride (ph : Phase) : (s.toPhase ph).stride = (if (s.phase.busy && !ph.busy) = true then Config.freeWord (s.fresh + 4) else s.stride) := rfl
@[simp] theorem State.toPhase_rowoff (ph : Phase) : (s.toPhase ph).rowoff = (if (s.phase.busy && !ph.busy) = true then Config.freeWord (s.fresh + 5) else s.rowoff) := rfl
@[simp] theorem State.toPhase_p (ph : Phase) : (s.toPhase ph).p = (if (s.phase.busy && !ph.busy) = true then Config.freeWord (s.fresh + 6) else s.p) := rfl
@[simp] theorem State.toPhase_outptr (ph : Phase) : (s.toPhase ph).outptr = (if (s.phase.busy && !ph.busy) = true then Config.freeWord (s.fresh + 7) else s.outptr) := rfl
@[simp] theorem State.toPhase_rl (ph : Phase) : (s.toPhase ph).rl = (if (s.phase == .run && ph != .run) = true then Config.freeWord (s.fresh + 8) else s.rl) := rfl
@[simp] theorem State.toPhase_val (ph : Phase) : (s.toPhase ph).val = (if (s.phase == .run && ph != .run) = true then Config.freeByte (s.fresh + 9) else s.val) := rfl
@[simp] theorem State.toPhase_n (ph : Phase) : (s.toPhase ph).n = (if (s.phase == .lit && ph != .lit) = true then Config.freeWord (s.fresh + 10) else s.n) := rfl
@[simp] theorem State.toPhase_pix (ph : Phase) : (s.toPhase ph).pix = s.pix := rfl
@[simp] theorem State.toPhase_out (ph : Phase) : (s.toPhase ph).out = s.out := rfl
@[simp] theorem State.toPhase_fresh (ph : Phase) : (s.toPhase ph).fresh = s.fresh + 11 := rfl
@[simp] theorem State.toPhase_rdata (ph : Phase) : (s.toPhase ph).rdata = s.rdata := rfl
@[simp] theorem State.toPhase_turns (ph : Phase) : (s.toPhase ph).turns = s.turns := rfl
@[simp] theorem State.toPhase_reader (ph : Phase) : (s.toPhase ph).reader = s.reader := rfl
@[simp] theorem State.toPhase_settled (ph : Phase) : (s.toPhase ph).settled = s.settled := rfl

/-! ### `State.lose` -/

@[simp] theorem State.lose_width : (s.lose).width = s.width := rfl
@[simp] theorem State.lose_imageSize : (s.lose).imageSize = s.imageSize := rfl
@[simp] theorem State.lose_outCap : (s.lose).outCap = s.outCap := rfl
@[simp] theorem State.lose_encSize : (s.lose).encSize = s.encSize := rfl
@[simp] theorem State.lose_errCode : (s.lose).errCode = s.errCode := rfl
@[simp] theorem State.lose_phase : (s.lose).phase = s.phase := rfl
@[simp] theorem State.lose_stride : (s.lose).stride = Config.freeWord (s.fresh + 4) := rfl
@[simp] theorem State.lose_rowoff : (s.lose).rowoff = Config.freeWord (s.fresh + 5) := rfl
@[simp] theorem State.lose_p : (s.lose).p = Config.freeWord (s.fresh + 6) := rfl
@[simp] theorem State.lose_outptr : (s.lose).outptr = Config.freeWord (s.fresh + 7) := rfl
@[simp] theorem State.lose_rl : (s.lose).rl = Config.freeWord (s.fresh + 8) := rfl
@[simp] theorem State.lose_val : (s.lose).val = Config.freeByte (s.fresh + 9) := rfl
@[simp] theorem State.lose_n : (s.lose).n = Config.freeWord (s.fresh + 10) := rfl
@[simp] theorem State.lose_pix : (s.lose).pix = s.pix := rfl
@[simp] theorem State.lose_out : (s.lose).out = s.out := rfl
@[simp] theorem State.lose_fresh : (s.lose).fresh = s.fresh + 11 := rfl
@[simp] theorem State.lose_rdata : (s.lose).rdata = s.rdata := rfl
@[simp] theorem State.lose_turns : (s.lose).turns = s.turns := rfl
@[simp] theorem State.lose_reader : (s.lose).reader = s.reader := rfl
@[simp] theorem State.lose_settled : (s.lose).settled = s.settled := rfl

/-! ### `State.clearResult` -/

@[simp] theorem State.clearResult_width : (s.clearResult).width = s.width := rfl
@[simp] theorem State.clearResult_imageSize : (s.clearResult).imageSize = s.imageSize := rfl
@[simp] theorem State.clearResult_outCap : (s.clearResult).outCap = s.outCap := rfl
@[simp] theorem State.clearResult_encSize : (s.clearResult).encSize = 0 := rfl
@[simp] theorem State.clearResult_errCode : (s.clearResult).errCode = 0 := rfl
@[simp] theorem State.clearResult_phase : (s.clearResult).phase = s.phase := rfl
@[simp] theorem State.clearResult_stride : (s.clearResult).stride = s.stride := rfl
@[simp] theorem State.clearResult_rowoff : (s.clearResult).rowoff = s.rowoff := rfl
@[simp] theorem State.clearResult_p : (s.clearResult).p = s.p := rfl
@[simp] theorem State.clearResult_outptr : (s.clearResult).outptr = s.outptr := rfl
@[simp] theorem State.clearResult_rl : (s.clearResult).rl = s.rl := rfl
@[simp] theorem State.clearResult_val : (s.clearResult).val = s.val := rfl
@[simp] theorem State.clearResult_n : (s.clearResult).n = s.n := rfl
@[simp] theorem State.clearResult_pix : (s.clearResult).pix = s.pix := rfl
@[simp] theorem State.clearResult_out : (s.clearResult).out = s.out := rfl
@[simp] theorem State.clearResult_fresh : (s.clearResult).fresh = s.fresh := rfl
@[simp] theorem State.clearResult_rdata : (s.clearResult).rdata = s.rdata := rfl
@[simp] theorem State.clearResult_turns : (s.clearResult).turns = s.turns := rfl
@[simp] theorem State.clearResult_reader : (s.clearResult).reader = s.reader := rfl
@[simp] theorem State.clearResult_settled : (s.clearResult).settled = s.settled := rfl

/-! ### `State.settle` -/

@[simp] theorem State.settle_width (first len : Nat) : (s.settle first len).width = s.width := rfl
@[simp] theorem State.settle_imageSize (first len : Nat) : (s.settle first len).imageSize = s.imageSize := rfl
@[simp] theorem State.settle_outCap (first len : Nat) : (s.settle first len).outCap = s.outCap := rfl
@[simp] theorem State.settle_encSize (first len : Nat) : (s.settle first len).encSize = s.encSize := rfl
@[simp] theorem State.settle_errCode (first len : Nat) : (s.settle first len).errCode = s.errCode := rfl
@[simp] theorem State.settle_phase (first len : Nat) : (s.settle first len).phase = s.phase := rfl
@[simp] theorem State.settle_stride (first len : Nat) : (s.settle first len).stride = s.stride := rfl
@[simp] theorem State.settle_rowoff (first len : Nat) : (s.settle first len).rowoff = s.rowoff := rfl
@[simp] theorem State.settle_p (first len : Nat) : (s.settle first len).p = s.p := rfl
@[simp] theorem State.settle_outptr (first len : Nat) : (s.settle first len).outptr = s.outptr := rfl
@[simp] theorem State.settle_rl (first len : Nat) : (s.settle first len).rl = s.rl := rfl
@[simp] theorem State.settle_val (first len : Nat) : (s.settle first len).val = s.val := rfl
@[simp] theorem State.settle_n (first len : Nat) : (s.settle first len).n = s.n := rfl
@[simp] theorem State.settle_pix (first len : Nat) : (s.settle first len).pix = s.pix := rfl
@[simp] theorem State.settle_out (first len : Nat) : (s.settle first len).out = s.out := rfl
@[simp] theorem State.settle_fresh (first len : Nat) : (s.settle first len).fresh = s.fresh := rfl
@[simp] theorem State.settle_rdata (first len : Nat) : (s.settle first len).rdata = s.rdata := rfl
@[simp] theorem State.settle_turns (first len : Nat) : (s.settle first len).turns = s.turns := rfl
@[simp] theorem State.settle_reader (first len : Nat) : (s.settle first len).reader = s.reader := rfl
@[simp] theorem State.settle_settled (first len : Nat) :
    (s.settle first len).settled = s.settled.map (fun spans => (first, len) :: spans) := rfl

/-! ### `State.setConfig` -/

/-- A configuration write changes the one register it names. -/
theorem State.setConfig_width (data : Word) : s.setConfig .width data = { s with width := data } := rfl

theorem State.setConfig_imageSize (data : Word) : s.setConfig .imageSize data = { s with imageSize := data } := rfl

theorem State.setConfig_outCap (data : Word) : s.setConfig .outCap data = { s with outCap := data } := rfl

end Sys2Proof.Machine
end

