-- ==== Sys2Proof/Laws/Ops.lean ====
section
/-! SUPPORT. What each shared operation over registers can do, said once. -/

namespace Sys2Proof.Machine

variable {s : State}

/-- A natural number that fits its register is stored as it is. -/
theorem State.fit_toNat {slot v : Nat} (h : v < 2 ^ 32) : (s.fit slot v).toNat = v := by
  simp only [State.fit, h, if_true, BitVec.toNat_ofNat]
  exact Nat.mod_eq_of_lt h

theorem word_ofNat_toNat {v : Nat} (h : v < 2 ^ 32) : (BitVec.ofNat 32 v).toNat = v := by
  rw [BitVec.toNat_ofNat]; exact Nat.mod_eq_of_lt h

theorem byte_ofNat_toNat {v : Nat} (h : v < 256) : (BitVec.ofNat 8 v).toNat = v := by
  rw [BitVec.toNat_ofNat]; exact Nat.mod_eq_of_lt h

/-- `emit` on OUT (R11): the bytes stand from OUTPTR on, and nothing else of OUT changes. -/
theorem State.emit_stored {bytes : List Byte} (h : s.out.wf = true) :
    (s.emit bytes).out.readBytes s.outptr.toNat bytes.length = bytes ∧
      ∀ i, i < s.outptr.toNat ∨ s.outptr.toNat + bytes.length ≤ i → (s.emit bytes).out.read i = s.out.read i :=
  ⟨Memory.readBytes_writeBytes h, fun _ hi => Memory.read_writeBytes_outside h hi⟩

/-- `emit` on OUTPTR, where the sum fits. -/
theorem State.emit_outptr_toNat {bytes : List Byte} (h : s.outptr.toNat + bytes.length < 2 ^ 32) :
    (s.emit bytes).outptr.toNat = s.outptr.toNat + bytes.length := State.fit_toNat h

theorem State.emit_wf {bytes : List Byte} (h : s.out.wf = true) : (s.emit bytes).out.wf = true :=
  Memory.wf_writeBytes h

/-- A move between two phases of a launch keeps STRIDE, ROWOFF, P and OUTPTR. -/
theorem State.toPhase_keeps {ph : Phase} (h : s.phase.busy = false ∨ ph.busy = true) :
    (s.toPhase ph).stride = s.stride ∧ (s.toPhase ph).rowoff = s.rowoff ∧ (s.toPhase ph).p = s.p ∧
      (s.toPhase ph).outptr = s.outptr := by
  rcases h with h | h <;> simp [h]

/-- A guarded micro-operation answers a next state only where it is selected, and then its effect. -/
theorem State.whenSelected_eq_next {b : Bool} {t u : State} :
    State.whenSelected b t = .next u ↔ b = true ∧ u = t := by
  cases b <;> simp [State.whenSelected, eq_comm]

/-- A token of the reader answers a next state only before the end-of-bitmap marker. -/
theorem State.whenReading_eq_next {r : Reader} {t : State} (h : s.whenReading r = .next t) :
    s.reader.ended = false ∧ t = { s with reader := r } := by
  unfold State.whenReading at h
  split at h
  · cases h
  · rename_i hr
    cases h
    exact ⟨by simpa using hr, rfl⟩

/-- Error entry (R207) touches ERR_CODE, PHASE and the free-value counter where no launch is in progress. -/
theorem State.raise_of_idle {code : BitVec 4} (h : s.phase.busy = false) :
    s.raise code = { s with errCode := code, phase := .error, fresh := s.fresh + 11 } := by
  have h1 : (s.phase == Phase.run) = false := by revert h; cases s.phase <;> decide
  have h2 : (s.phase == Phase.lit) = false := by revert h; cases s.phase <;> decide
  simp [State.raise, State.toPhase, h, h1, h2]

end Sys2Proof.Machine
end

