-- ==== Sys2Proof/Laws/Operands.lean ====
section
/-! SUPPORT. What the shared reads of the state can answer, said once: BUSY, the STATUS word, the guard that holds and the
micro-operation it selects, and what an H_START does where BUSY = 0. -/

namespace Sys2Proof.Machine

variable {s : State}

/-- BUSY = 1 in exactly the four phases of a launch (R33). -/
theorem Phase.busy_iff {ph : Phase} : ph.busy = true ↔ ph = .scan ∨ ph = .run ∨ ph = .lit ∨ ph = .fin := by
  cases ph <;> simp [Phase.busy]

/-- The STATUS word as a number (Table R183): nothing of the sum is lost. -/
theorem State.status_toNat : s.status.toNat =
    s.errCode.toNat * 16 + s.phase.isError.toNat * 4 + s.phase.isDone.toNat * 2 + s.phase.busy.toNat := by
  have := s.errCode.isLt
  have := Bool.toNat_le s.phase.isError
  have := Bool.toNat_le s.phase.isDone
  have := Bool.toNat_le s.phase.busy
  exact word_ofNat_toNat (by omega)

theorem State.guard_of_below (hs : s.phase = .scan) (h : s.p.toNat < s.stride.toNat) : s.guard = .pBelowStride := by
  simp [State.guard, hs, BitVec.lt_def, h]

theorem State.guard_of_at (hs : s.phase = .scan) (h : s.p = s.stride) : s.guard = .pAtStride := by
  simp [State.guard, hs, h]

theorem State.guard_of_atLeast3 (hs : s.phase = .lit) (h : 3 ≤ s.n.toNat) : s.guard = .nAtLeast3 := by
  simp [State.guard, hs, h]

theorem State.guard_of_atMost2 (hs : s.phase = .lit) (h : s.n.toNat ≤ 2) : s.guard = .nAtMost2 := by
  have : ¬ 3 ≤ s.n.toNat := by omega
  simp [State.guard, hs, this]

/-- While BUSY = 1 the host can rely on no byte of OUT (R61). -/
theorem State.outKnown_of_busy {a : Nat} (h : s.busy = true) : s.outKnown a = false := by
  simp [State.outKnown, h]

/-- Where no launch was cut short, the host can rely on every byte of OUT while BUSY = 0. -/
theorem State.outKnown_of_none {a : Nat} (hb : s.busy = false) (h : s.settled = none) : s.outKnown a = true := by
  simp [State.outKnown, hb, h]

/-- What settling a span makes known: the span, and what was known before. -/
theorem State.outKnown_settle {first len a : Nat} (hb : s.busy = false) :
    (s.settle first len).outKnown a = true ↔ (first ≤ a ∧ a < first + len) ∨ s.outKnown a = true := by
  have hb' : (s.settle first len).busy = false := hb
  cases h : s.settled <;> simp [State.outKnown, hb, hb', h]

/-- A reset that cuts a launch short leaves no byte of OUT the host can rely on (R231). -/
theorem State.outKnown_resetStep {a : Nat} (h : s.busy = true) : s.resetStep.outKnown a = false := by
  simp [State.outKnown, State.resetStep, h]

/-- Where a check fails, an H_START clears the last result and records the code; the working registers stay dead (R207). -/
theorem State.startStep_of_error {code : BitVec 4} (hb : s.busy = false)
    (h : checkLaunch s.width.toNat s.imageSize.toNat s.outCap.toNat = some code) :
    s.startStep = { s with encSize := 0, errCode := code, phase := .error, fresh := s.fresh + 11 } := by
  unfold State.startStep
  rw [h]
  exact State.raise_of_idle (s := s.clearResult) hb

/-- Where all checks pass, an H_START clears the last result and launches (R180). -/
theorem State.startStep_of_none (h : checkLaunch s.width.toNat s.imageSize.toNat s.outCap.toNat = none) :
    s.startStep = s.clearResult.launch := by
  unfold State.startStep
  rw [h]

/-- The checks pass exactly on the preconditions of R202 to R205. -/
theorem checkLaunch_eq_none {w size cap : Nat} :
    checkLaunch w size cap = none ↔ w ≠ 0 ∧ size ≠ 0 ∧ size % strideOf w = 0 ∧ 2 * size ≤ cap := by
  unfold checkLaunch
  split_ifs <;> simp_all

/-- An accepted image's stride fits its register (R28). -/
theorem strideOf_lt_of_checkLaunch {w size cap : Nat} (h : checkLaunch w size cap = none) (hs : size < 2 ^ 32) :
    strideOf w < 2 ^ 32 := by
  obtain ⟨-, h0, hm, -⟩ := checkLaunch_eq_none.mp h
  exact lt_of_le_of_lt (Nat.le_of_dvd (by omega) (Nat.dvd_of_mod_eq_zero hm)) hs

end Sys2Proof.Machine
end

