-- ==== Sys2Proof/Laws/Packers.lean ====
section
/-! SUPPORT. What the run detector and the look-ahead answer, the lengths of token bytes, and `EncRow` as an equation
without fuel. -/

namespace Sys2Proof.Machine

variable {v : Byte} {row : List Byte}

/-! ### The run detector -/

theorem leadCount_le : leadCount v row ≤ row.length := by
  induction row with
  | nil => simp [leadCount]
  | cons b rest ih => simp only [leadCount, List.length_cons]; split <;> omega

theorem leadCount_getElem {i : Nat} (hi : i < leadCount v row) :
    row[i]'(lt_of_lt_of_le hi leadCount_le) = v := by
  induction row generalizing i with
  | nil => simp [leadCount] at hi
  | cons b rest ih =>
    simp only [leadCount] at hi
    split at hi
    · rename_i hb
      cases i with
      | zero => simpa using hb
      | succ i => simpa using ih (by omega)
    · omega

theorem leadCount_stop (h : leadCount v row < row.length) : row[leadCount v row] ≠ v := by
  induction row with
  | nil => simp at h
  | cons b rest ih =>
    by_cases hb : b = v
    · simp only [leadCount, hb, if_true, List.length_cons, Nat.add_lt_add_iff_right, List.getElem_cons_succ] at h ⊢
      exact ih h
    · simp [leadCount, hb]

theorem runLen_le : runLen row ≤ row.length := by
  cases row with
  | nil => simp [runLen]
  | cons b rest => simpa [runLen] using leadCount_le

theorem runLen_pos (h : row ≠ []) : 1 ≤ runLen row := by
  cases row with
  | nil => exact absurd rfl h
  | cons b rest => simp [runLen]

theorem runLen_getElem {i : Nat} (hi : i < runLen row) :
    row[i]'(lt_of_lt_of_le hi runLen_le) = row[0]'(by have := lt_of_lt_of_le hi (runLen_le (row := row)); omega) := by
  cases row with
  | nil => simp [runLen] at hi
  | cons b rest =>
    cases i with
    | zero => rfl
    | succ i =>
      simp only [runLen] at hi
      simpa using leadCount_getElem (v := b) (row := rest) (by omega)

theorem runLen_stop (h : runLen row < row.length) : row[runLen row] ≠ row[0]'(by omega) := by
  cases row with
  | nil => simp at h
  | cons b rest =>
    simp only [runLen, List.length_cons, Nat.add_lt_add_iff_right, List.getElem_cons_succ,
      List.getElem_cons_zero] at h ⊢
    exact leadCount_stop h

/-! ### The look-ahead -/

theorem bytesBeforeRun_le : bytesBeforeRun row ≤ row.length := by
  induction row with
  | nil => simp [bytesBeforeRun]
  | cons b rest ih => simp only [bytesBeforeRun, List.length_cons]; split <;> omega

theorem bytesBeforeRun_before {i : Nat} (hi : i < bytesBeforeRun row) : runLen (row.drop i) < 3 := by
  induction row generalizing i with
  | nil => simp [bytesBeforeRun] at hi
  | cons b rest ih =>
    simp only [bytesBeforeRun] at hi
    split at hi
    · omega
    · cases i with
      | zero => simp only [List.drop_zero]; omega
      | succ i => simpa using ih (by omega)

theorem bytesBeforeRun_stop (h : bytesBeforeRun row < row.length) :
    3 ≤ runLen (row.drop (bytesBeforeRun row)) := by
  induction row with
  | nil => simp at h
  | cons b rest ih =>
    by_cases hb : 3 ≤ runLen (b :: rest)
    · simp [bytesBeforeRun, hb]
    · simp only [bytesBeforeRun, hb, if_false, List.length_cons, Nat.add_lt_add_iff_right, List.drop_succ_cons] at h ⊢
      exact ih h

theorem litLen_le : litLen row ≤ row.length := by
  cases row with
  | nil => simp [litLen]
  | cons b rest => simpa [litLen] using bytesBeforeRun_le

theorem litLen_pos (h : row ≠ []) : 1 ≤ litLen row := by
  cases row with
  | nil => exact absurd rfl h
  | cons b rest => simp [litLen]

/-! ### Lengths of token bytes -/

@[simp] theorem repeatBytes_length {c : Byte} : (repeatBytes c v).length = 2 := rfl

@[simp] theorem eolBytes_length : eolBytes.length = 2 := rfl

@[simp] theorem eobBytes_length : eobBytes.length = 2 := rfl

theorem padBytes_length {n : Nat} : (padBytes n).length = n % 2 := by
  unfold padBytes; split <;> simp <;> omega

theorem absBytes_length : (absBytes row).length = 2 + row.length + row.length % 2 := by
  simp [absBytes, padBytes_length]; omega

theorem shortLit_length : (shortLit row).length = 2 * row.length := by
  induction row with
  | nil => rfl
  | cons b rest ih =>
    simp only [shortLit, List.map_cons, List.flatten_cons, List.length_append, List.length_cons,
      repeatBytes_length] at ih ⊢
    omega

/-! ### EncRow without fuel -/

theorem encRowLoop_eq {f g : Nat} (hf : row.length ≤ f) (hg : row.length ≤ g) :
    encRowLoop f row = encRowLoop g row := by
  induction f generalizing g row with
  | zero =>
    have : row = [] := List.length_eq_zero_iff.mp (by omega)
    subst this
    cases g <;> rfl
  | succ f ih =>
    cases row with
    | nil => cases g <;> rfl
    | cons b rest =>
      cases g with
      | zero => simp at hg
      | succ g =>
        have hr := runLen_pos (row := b :: rest) (by simp)
        have hl := litLen_pos (row := b :: rest) (by simp)
        simp only [List.length_cons] at hf hg
        simp only [encRowLoop]
        rw [ih (row := (b :: rest).drop (runLen (b :: rest))) (g := g) (by simp; omega) (by simp; omega),
          ih (row := (b :: rest).drop (litLen (b :: rest))) (g := g) (by simp; omega) (by simp; omega)]

@[simp] theorem encRow_nil : encRow [] = [] := rfl

/-- Pseudocode R118, one turn of its loop. -/
theorem encRow_cons {rest : List Byte} :
    encRow (v :: rest) =
      if 3 ≤ runLen (v :: rest) then
        encRun (runLen (v :: rest)) v ++ encRow ((v :: rest).drop (runLen (v :: rest)))
      else
        encLit ((v :: rest).take (litLen (v :: rest))) ++ encRow ((v :: rest).drop (litLen (v :: rest))) := by
  have hr := runLen_pos (row := v :: rest) (by simp)
  have hl := litLen_pos (row := v :: rest) (by simp)
  conv_lhs => rw [encRow]
  simp only [List.length_cons, encRowLoop]
  rw [encRowLoop_eq (row := (v :: rest).drop (runLen (v :: rest))) (g := ((v :: rest).drop (runLen (v :: rest))).length)
      (by simp; omega) le_rfl,
    encRowLoop_eq (row := (v :: rest).drop (litLen (v :: rest))) (g := ((v :: rest).drop (litLen (v :: rest))).length)
      (by simp; omega) le_rfl]
  rfl

/-! ### The rows of an image -/

/-- The tokens of `k + l` rows are those of the first `k` and then those of the other `l`. -/
theorem encRows_add {pix : Memory} {stride offset k l : Nat} :
    encRows pix stride offset (k + l) = encRows pix stride offset k ++ encRows pix stride (offset + k * stride) l := by
  induction k generalizing offset with
  | zero => simp [encRows]
  | succ k ih =>
    rw [Nat.add_right_comm k 1 l]
    simp only [encRows, ih, List.append_assoc]
    congr 4
    ring

/-- The tokens of one row more. -/
theorem encRows_succ {pix : Memory} {stride k : Nat} :
    encRows pix stride 0 (k + 1) =
      encRows pix stride 0 k ++ encRow (pix.readBytes (k * stride) stride) ++ eolBytes := by
  rw [encRows_add]; simp [encRows]

end Sys2Proof.Machine
end

