-- ==== Sys2Proof/Laws/PerInstr.lean ====
section
/-! SUPPORT. What holds of every instruction as syntax, one lemma per constructor: a token's bytes are even in number and
never start with the reserved header, T_DELTA apart (R80, R86, R88). -/

namespace Sys2Proof.Laws.ReservedHeader

open Sys2Proof.Machine

/-- The bytes of a well-formed token are even in number, at least the header, and start `00 02` for T_DELTA alone. -/
def Statement (i : Instr) : Prop :=
  i.wf = true → ∀ bytes, encode i = .stream bytes →
    bytes.length % 2 = 0 ∧ 2 ≤ bytes.length ∧ (bytes.take 2 = [0, 2] ↔ i = .tDelta)

theorem tEol : Statement .tEol := by rintro - _ ⟨⟩; decide

theorem tEob : Statement .tEob := by rintro - _ ⟨⟩; decide

theorem tDelta : Statement .tDelta := by rintro - _ ⟨⟩; decide

theorem tAbs (payload : List Byte) : Statement (.tAbs payload) := by
  rintro h _ ⟨⟩
  have hlen : 3 ≤ payload.length ∧ payload.length ≤ 255 := by simpa [Instr.wf] using h
  rw [absBytes_length]
  refine ⟨by omega, by omega, iff_of_false ?_ (by simp)⟩
  simp only [absBytes, List.cons_append, List.nil_append, List.take_succ_cons, List.take_zero,
    List.cons.injEq, true_and, and_true]
  intro heq
  have := congrArg BitVec.toNat heq
  rw [BitVec.toNat_ofNat, Nat.mod_eq_of_lt (by omega)] at this
  simp at this
  omega

theorem tRepeat (count value : Byte) : Statement (.tRepeat count value) := by
  rintro h _ ⟨⟩
  have hc : count ≠ 0 := by simpa [Instr.wf] using h
  refine ⟨by simp, by simp, iff_of_false ?_ (by simp)⟩
  simpa [repeatBytes] using fun h => absurd h hc

theorem uDetect : Statement .uDetect := by rintro - _ ⟨⟩

theorem uEol : Statement .uEol := by rintro - _ ⟨⟩

theorem uRepeat : Statement .uRepeat := by rintro - _ ⟨⟩

theorem uAbs : Statement .uAbs := by rintro - _ ⟨⟩

theorem uShort : Statement .uShort := by rintro - _ ⟨⟩

theorem uFin : Statement .uFin := by rintro - _ ⟨⟩

theorem hStart (ignored : BitVec 31) : Statement (.hStart ignored) := by rintro - _ ⟨⟩

theorem hWriteCfg (reg : CfgReg) (data : Word) : Statement (.hWriteCfg reg data) := by rintro - _ ⟨⟩

theorem hRead (reg : BitVec 3) : Statement (.hRead reg) := by rintro - _ ⟨⟩

theorem hReset : Statement .hReset := by rintro - _ ⟨⟩

end Sys2Proof.Laws.ReservedHeader
end

