-- ==== Sys2Proof/Laws/Step.lean ====
section
/-! SUPPORT. What a step can do, said once: which operation each move runs, and the cases of a step that answers a next
state. -/

namespace Sys2Proof.Machine

variable {s t : State} {i : Instr}

/-- The core's move runs the micro-operation its phase and guard select. -/
theorem coreMove_of_decode {rest : List Byte} (h : decode (.phase s.phase.code s.guard) = .ok (i, rest)) :
    coreMove s = exec i s := by
  unfold coreMove; rw [h]

/-- Where BUSY = 0 the core is quiescent. -/
theorem coreMove_quiescent (h : s.phase.busy = false) : coreMove s = .next s := by
  have hd : decode (.phase s.phase.code s.guard) = .error .quiescent := by
    revert h
    cases hp : s.phase <;> intro h <;> first | rfl | exact absurd h (by decide)
  unfold coreMove; rw [hd]

/-- The core selects micro-operations only. -/
theorem mem_microOperations_of_decode {code : BitVec 3} {g : Guard} {rest : List Byte}
    (h : decode (.phase code g) = .ok (i, rest)) : i ∈ microOperations := by
  revert h
  simp only [decode, decodePhase]
  cases g <;> split_ifs <;> simp [Except.map, microOperations] <;> rintro rfl <;> simp

theorem isToken_of_mem_microOperations (h : i ∈ microOperations) : isToken i = false := by
  simp only [microOperations, List.mem_cons, List.not_mem_nil, or_false] at h
  rcases h with rfl | rfl | rfl | rfl | rfl | rfl <;> rfl

/-- A command word decodes to a host command. -/
theorem isToken_of_decodeCommand {word : BitVec 36} {rest : List Byte}
    (h : decode (.command word) = .ok (i, rest)) : isToken i = false ∧ i ≠ .hReset := by
  revert h
  simp only [decode, decodeCommand]
  split_ifs <;> simp [Except.map] <;> rintro rfl - <;> simp [isToken]

/-- A stream decodes to a token. -/
theorem isToken_of_decodeToken {bytes rest : List Byte} (h : decodeToken bytes = .ok (i, rest)) :
    isToken i = true := by
  unfold decodeToken at h
  split at h
  · split_ifs at h <;> cases h <;> rfl
  · cases h

/-- Every way a step answers a next state: the turn is spent and then nothing happens, a micro-operation or host command
runs, a token of the reader runs, or the host accesses a buffer. -/
inductive StepCase (s t : State) : Prop
  | idle (turns : List Turn) (h : t = { s with turns := turns })
  | micro (turns : List Turn) (i : Instr) (hi : i ∈ microOperations) (h : exec i { s with turns := turns } = .next t)
  | command (turns : List Turn) (i : Instr) (word : BitVec 36) (hi : decode (.command word) = .ok (i, []))
      (h : exec i { s with turns := turns } = .next t)
  | reset (turns : List Turn) (hr : ∃ turn ∈ s.turns.head?, turn.reset = true)
      (h : exec .hReset { s with turns := turns } = .next t)
  | token (turns : List Turn) (i : Instr) (rest : List Byte) (hi : decodeToken s.reader.rest = .ok (i, rest))
      (h : exec i { s with turns := turns, reader := { s.reader with rest := rest } } = .next t)
  | storePix (turns : List Turn) (a : Nat) (v : Byte) (hb : s.busy = false)
      (h : t = { s with turns := turns, pix := s.pix.write a v })
  | storeOut (turns : List Turn) (a : Nat) (v : Byte) (hb : s.busy = false)
      (h : t = { s with turns := turns, out := s.out.write a v }.settle a 1)
  | load (turns : List Turn) (v : Word) (k : Nat) (h : t = { s with turns := turns, rdata := v, fresh := k })

theorem StepCase.of_coreMove {turns : List Turn} (h : coreMove { s with turns := turns } = .next t) :
    StepCase s t := by
  unfold coreMove at h
  split at h
  · rename_i i rest hd
    exact .micro turns i (mem_microOperations_of_decode hd) h
  · cases h; exact .idle turns rfl
  · cases h

/-- The cases of a step. -/
theorem step_cases (h : step s = .next t) : StepCase s t := by
  unfold step runTurn at h
  split at h
  · rename_i hs
    have hst : s = { s with turns := [] } := by rw [← hs]
    rw [hst] at h
    exact .of_coreMove h
  · rename_i turn turns hs
    split at h
    · rename_i i rest hd
      have hr : turn.reset = true := by revert hd; cases turn.reset <;> simp [decode]
      rw [hr] at hd
      cases hd
      exact .reset _ ⟨turn, by simp [hs], hr⟩ h
    · cases hm : turn.move <;> rw [hm] at h <;> simp only [runMove] at h
      case core => exact .of_coreMove h
      case command word =>
        unfold commandMove at h
        split at h
        · rename_i i rest hd
          have hrest : rest = [] := by
            revert hd; simp only [decode]; cases decodeCommand word <;> simp [Except.map]
          subst hrest
          exact .command turns i word hd h
        · cases h; exact .idle turns rfl
      case reader =>
        unfold readerMove at h
        split at h
        · cases h; exact .idle turns rfl
        · split at h
          · rename_i i rest hd
            exact .token turns i rest hd h
          · cases h
      case storePix a v =>
        unfold hostStorePix at h
        split at h
        · cases h
        · rename_i hb
          cases h; exact .storePix turns a.toNat v (Bool.eq_false_iff.mpr hb) rfl
      case storeOut a v =>
        unfold hostStoreOut at h
        split at h
        · cases h
        · rename_i hb
          cases h; exact .storeOut turns a.toNat v (Bool.eq_false_iff.mpr hb) rfl
      case loadPix a => unfold hostLoadPix at h; cases h; exact .load turns _ _ rfl
      case loadOut a => unfold hostLoadOut at h; cases h; exact .load turns _ _ rfl

/-- Every way a micro-operation answers a next state: it was selected, and its effect is the state. -/
theorem micro_cases (hi : i ∈ microOperations) (h : exec i s = .next t) :
    (i = .uDetect ∧ s.phase = .scan ∧ s.p.toNat < s.stride.toNat ∧ t = s.detectStep) ∨
    (i = .uEol ∧ s.phase = .scan ∧ s.p = s.stride ∧ t = s.eolStep) ∨
    (i = .uRepeat ∧ s.phase = .run ∧ t = s.repeatStep (min s.rl.toNat 255)) ∨
    (i = .uAbs ∧ s.phase = .lit ∧ 3 ≤ s.n.toNat ∧ t = s.absStep (min s.n.toNat 255)) ∨
    (i = .uShort ∧ s.phase = .lit ∧ s.n.toNat ≤ 2 ∧ t = s.shortStep) ∨
    (i = .uFin ∧ s.phase = .fin ∧ 2 ≤ s.outptr.toNat ∧ t = s.finStep) := by
  simp only [microOperations, List.mem_cons, List.not_mem_nil, or_false] at hi
  rcases hi with rfl | rfl | rfl | rfl | rfl | rfl
  · obtain ⟨h1, h2⟩ := State.whenSelected_eq_next.mp h
    simp only [Bool.and_eq_true, beq_iff_eq, decide_eq_true_eq, BitVec.lt_def] at h1
    exact .inl ⟨rfl, h1.1, h1.2, h2⟩
  · obtain ⟨h1, h2⟩ := State.whenSelected_eq_next.mp h
    simp only [Bool.and_eq_true, beq_iff_eq] at h1
    exact .inr (.inl ⟨rfl, h1.1, h1.2, h2⟩)
  · obtain ⟨h1, h2⟩ := State.whenSelected_eq_next.mp h
    exact .inr (.inr (.inl ⟨rfl, by simpa using h1, h2⟩))
  · obtain ⟨h1, h2⟩ := State.whenSelected_eq_next.mp h
    simp only [Bool.and_eq_true, beq_iff_eq, decide_eq_true_eq] at h1
    exact .inr (.inr (.inr (.inl ⟨rfl, h1.1, h1.2, h2⟩)))
  · obtain ⟨h1, h2⟩ := State.whenSelected_eq_next.mp h
    simp only [Bool.and_eq_true, beq_iff_eq, decide_eq_true_eq] at h1
    exact .inr (.inr (.inr (.inr (.inl ⟨rfl, h1.1, h1.2, h2⟩))))
  · simp only [exec, execUFin] at h
    split at h
    · cases h
    · rename_i hf
      obtain ⟨h1, h2⟩ := State.whenSelected_eq_next.mp h
      refine .inr (.inr (.inr (.inr (.inr ⟨rfl, by simpa using h1, ?_, h2⟩))))
      simp only [beq_iff_eq] at h1
      simp [h1] at hf
      omega

end Sys2Proof.Machine
end

