-- ==== Sys2Proof/Tests/Slice0.lean ====
section
/-! SUPPORT. The model's own tests: well-formedness, words written out from the spec's encodings, one step per operation
from the spec's examples and vectors (95_test_vectors.md), and for each statement with hypotheses a state that meets them. -/

namespace Sys2Proof.Tests

open Sys2Proof.Machine

/-- What a function reads in the next state; `none` where the machine stops. -/
def after {α : Type} (o : Host.Outcome State Fault Refusal) (f : State → α) : Option α :=
  match o with
  | .next t => some (f t)
  | _ => none

/-- A launch over one row, `05 05 09 00`, as H_START leaves it (WIDTH 4, IMAGE_SIZE 4, OUT_CAP 8). -/
def oneRow : State :=
  { State.reset with
    width := 4, imageSize := 4, outCap := 8, phase := .scan, stride := 4, pix := [(0, 5), (1, 5), (2, 9)] }

/-- The same launch in FIN: `00 04 05 05 09 00 00 00` is written. -/
def oneRowFin : State :=
  { oneRow with phase := .fin, rowoff := 4, outptr := 8, out := [(1, 4), (2, 5), (3, 5), (4, 9)] }

/-- The same image before H_START. -/
def configured : State := { oneRow with phase := .idle, stride := 0 }

/-- A state in RUN (V2.3.20 and its neighbours). -/
def running (rl : Word) : State := { State.reset with phase := .run, rl := rl, val := 2 }

/-- A state in LIT with its source bytes (V2.5.40 and its neighbours). -/
def literal (n : Word) (pix : Memory) : State := { State.reset with phase := .lit, n := n, pix := pix }

/-- The state with a stream before the reader. -/
def reading (bytes : List Byte) : State :=
  { State.reset with reader := { rest := bytes, out := [], markers := 0, ended := false } }

/-! ### Well-formedness -/

theorem test_wf_repeat_count_zero : Instr.wf (.tRepeat 0 7) = false := by decide

theorem test_wf_abs_of_two : Instr.wf (.tAbs [1, 2]) = false := by decide

theorem test_wf_abs_of_256 : Instr.wf (.tAbs (List.replicate 256 1)) = false := by decide +kernel

theorem test_wf_bounds : Instr.wf (.tRepeat 255 0) = true ∧ Instr.wf (.tAbs [1, 2, 3]) = true ∧
    Instr.wf (.tAbs (List.replicate 255 1)) = true := by decide +kernel

/-! ### Decoding, from Tables R81, R96 and R97 -/

/-- R82 `0A 07`, R83 `00 00`, R84 `00 01`, R86 `00 02`. -/
theorem test_decode_headers :
    decodeToken [0b00001010, 0b00000111] = .ok (.tRepeat 10 7, []) ∧
    decodeToken [0b00000000, 0b00000000] = .ok (.tEol, []) ∧
    decodeToken [0b00000000, 0b00000001] = .ok (.tEob, []) ∧
    decodeToken [0b00000000, 0b00000010] = .ok (.tDelta, []) := by decide

/-- V1.T4: both literals, odd with a pad byte and even without. -/
theorem test_decode_literals :
    decodeToken [0x00, 0x03, 0x0A, 0x0B, 0x0C, 0x00] = .ok (.tAbs [0x0A, 0x0B, 0x0C], []) ∧
    decodeToken [0x00, 0x04, 0x0A, 0x0B, 0x0C, 0x0D] = .ok (.tAbs [0x0A, 0x0B, 0x0C, 0x0D], []) := by decide

/-- R89, R92: a stream cut inside a token is refused. -/
theorem test_decode_truncated :
    decodeToken [] = .error .truncated ∧ decodeToken [0x05] = .error .truncated ∧
    decodeToken [0x00, 0x03, 1, 2, 3] = .error .truncated := by decide

/-- Table R97, every PHASE code. -/
theorem test_decode_phases :
    decodePhase 0b000 .none = .error .quiescent ∧ decodePhase 0b001 .pBelowStride = .ok .uDetect ∧
    decodePhase 0b001 .pAtStride = .ok .uEol ∧ decodePhase 0b010 .none = .ok .uRepeat ∧
    decodePhase 0b011 .nAtLeast3 = .ok .uAbs ∧ decodePhase 0b011 .nAtMost2 = .ok .uShort ∧
    decodePhase 0b100 .none = .ok .uFin ∧ decodePhase 0b101 .none = .error .quiescent ∧
    decodePhase 0b110 .none = .error .quiescent ∧ decodePhase 0b111 .none = .error .noRow := by decide

/-- Table R96: bit 35 write, bits [34:32] register, bits [31:0] data. -/
theorem test_decode_commands :
    decodeCommand 0b1_000_00000000000000000000000000000001 = .ok (.hStart 0) ∧
    decodeCommand 0b1_010_00000000000000000000000000001010 = .ok (.hWriteCfg .width 10) ∧
    decodeCommand 0b1_011_00000000000000000000000000001010 = .ok (.hWriteCfg .imageSize 10) ∧
    decodeCommand 0b1_100_00000000000000000000000000001010 = .ok (.hWriteCfg .outCap 10) ∧
    decodeCommand 0b0_001_00000000000000000000000000000000 = .ok (.hRead 1) ∧
    decodeCommand 0b1_000_00000000000000000000000000000010 = .error .noCommand ∧
    decodeCommand 0b1_101_00000000000000000000000000000001 = .error .noCommand := by decide

/-- The table's words: 16 bits a header, 36 a command, 3 a PHASE code, 1 the reset line (R98). -/
theorem test_decode_table_words :
    decodeTableWord 16 0x0A07 = some (.tRepeat 10 7) ∧ decodeTableWord 16 0x0003 = some (.tAbs [0, 0, 0]) ∧
    decodeTableWord 40 0x800000001 = some (.hStart 0) ∧ decodeTableWord 8 4 = some .uFin ∧
    decodeTableWord 1 1 = some .hReset := by decide

/-- A placed word is what the next step runs. -/
theorem test_placed_words :
    after (step (State.reset.withFetchWord 16 0x0A07)) (·.reader.out) = some (List.replicate 10 7) ∧
    after (step (State.reset.withFetchWord 8 4)) (·.phase) = some .done ∧
    after (step (State.reset.withFetchWord 40 0xA0000000A)) (·.width) = some 10 := by decide

/-! ### The tokens -/

/-- R82: `0A 07` is ten bytes of value 7. -/
theorem test_repeat_ten : after (exec (.tRepeat 10 7) State.reset) (·.reader.out) = some (List.replicate 10 7) := by
  decide

/-- V1.T4: the payload, not the pad. -/
theorem test_abs_payload : after (exec (.tAbs [10, 11, 12]) State.reset) (·.reader.out) = some [10, 11, 12] := by
  decide

/-- R83: one marker, no byte. -/
theorem test_eol_marker :
    after (exec .tEol State.reset) (fun t => (t.reader.markers, t.reader.out)) = some (1, []) := by decide

/-- R84, R92: the end; bytes after it are refused. -/
theorem test_eob_ends :
    after (exec .tEob State.reset) (fun t => (t.reader.markers, t.reader.ended)) = some (1, true) ∧
    after (exec .tEob (reading [0])) (·.reader.ended) = none := by decide

/-- R86: refused. -/
theorem test_delta_refused : after (exec .tDelta State.reset) (·.reader.out) = none := by decide

/-! ### The micro-operations -/

/-- R120: row `05 05 09 00` at P = 0 gives N = 4 and LIT. -/
theorem test_detect_literal : after (exec .uDetect oneRow) (fun t => (t.phase, t.n)) = some (.lit, 4) := by decide

/-- V2.2.3: row `01 02 02 02` at P = 1 gives RunLen 3, so RUN. -/
theorem test_detect_run :
    after (exec .uDetect { oneRow with p := 1, pix := [(0, 1), (1, 2), (2, 2), (3, 2)] })
      (fun t => (t.phase, t.rl, t.val)) = some (.run, 3, 2) := by decide

/-- R121's example: STRIDE 4, IMAGE_SIZE 8, ROWOFF 0, P 4, OUTPTR 2. -/
theorem test_eol_next_row :
    after (exec .uEol { oneRow with imageSize := 8, p := 4, outptr := 2, out := [(2, 9), (3, 9)] })
      (fun t => (t.out, t.outptr, t.rowoff, t.p, t.phase)) = some ([], 4, 4, 0, .scan) := by decide

/-- R121: after the last row, FIN. -/
theorem test_eol_last_row :
    after (exec .uEol { oneRow with p := 4 }) (fun t => (t.rowoff, t.phase)) = some (4, .fin) := by decide

/-- R122's example: OUTPTR 12. -/
theorem test_fin_marker :
    after (exec .uFin { oneRow with phase := .fin, outptr := 12 })
      (fun t => (t.out, t.encSize, t.status)) = some ([(11, 1)], 12, 2) := by decide

/-- V2.3.20. -/
theorem test_repeat_of_300 :
    after (exec .uRepeat (running 300)) (fun t => (t.out, t.phase, t.rl, t.p, t.outptr)) =
      some ([(0, 0xFF), (1, 2)], .run, 45, 255, 2) := by decide

/-- V2.3.22: a run of exactly 255 leaves no remainder. -/
theorem test_repeat_of_255 :
    after (exec .uRepeat { running 255 with val := 9 }) (fun t => (t.out, t.phase, t.p, t.outptr)) =
      some ([(0, 0xFF), (1, 9)], .scan, 255, 2) := by decide

/-- V2.5.40: an odd literal and its pad byte, which overwrites what stood there. -/
theorem test_abs_of_3 :
    after (exec .uAbs { literal 3 [(0, 5), (1, 5), (2, 9)] with out := [(5, 7)] })
      (fun t => (t.out, t.phase, t.p, t.outptr)) = some ([(1, 3), (2, 5), (3, 5), (4, 9)], .scan, 3, 6) := by decide

/-- V2.5.42: a literal of 300 bytes gives one token of 255 first. -/
theorem test_abs_of_300 :
    after (exec .uAbs { literal 300 [] with rowoff := 300, outptr := 6 })
      (fun t => (t.out, t.phase, t.n, t.p, t.outptr)) = some ([(7, 0xFF)], .lit, 45, 255, 264) := by decide +kernel

/-- R167's example: N = 2, bytes `08 08`. -/
theorem test_short_first :
    after (exec .uShort (literal 2 [(0, 8), (1, 8)])) (fun t => (t.out, t.n, t.phase)) =
      some ([(0, 1), (1, 8)], 1, .lit) := by decide

/-- V2.5.45. -/
theorem test_short_last :
    after (exec .uShort { literal 1 [] with p := 11, outptr := 4 }) (fun t => (t.out, t.phase, t.p, t.outptr)) =
      some ([(4, 1)], .scan, 12, 6) := by decide

/-! ### The host commands -/

/-- R180's first example. -/
theorem test_start_accepted :
    after (exec (.hStart 0) { State.reset with width := 4, imageSize := 8, outCap := 16 })
      (fun t => ((t.stride, t.rowoff, t.p), (t.outptr, t.phase, t.status))) =
      some ((4, 0, 0), (0, .scan, 1)) := by decide

/-- R180's second example: OUT_CAP 15. -/
theorem test_start_refused :
    after (exec (.hStart 0) { State.reset with width := 4, imageSize := 8, outCap := 15 })
      (fun t => (t.phase, t.status, t.encSize)) = some (.error, 0x44, 0) := by decide

/-- R182's example: PHASE = DONE, register 2 takes 10, STATUS and ENC_SIZE keep theirs. -/
theorem test_write_width :
    after (exec (.hWriteCfg .width 10) { State.reset with phase := .done, encSize := 12 })
      (fun t => (t.width, t.status, t.encSize)) = some (10, 2, 12) := by decide

/-- R183's example: registers 1 and 5 after a 12-byte stream. -/
theorem test_read_status :
    after (exec (.hRead 1) { State.reset with phase := .done, encSize := 12 }) (·.rdata) = some 2 ∧
    after (exec (.hRead 5) { State.reset with phase := .done, encSize := 12 }) (·.rdata) = some 12 := by decide

/-- R184's example. -/
theorem test_reset_in_run :
    after (exec .hReset { running 3 with width := 300 }) (fun t => (t.phase, t.width, t.status)) =
      some (.idle, 0, 0) := by decide

/-- R231: a reset that cuts a launch short leaves the bytes of OUT and makes every one of them undefined. -/
theorem test_reset_abandons_launch :
    after (exec .hReset { oneRow with out := [(0, 4), (1, 5)] }) (fun t => (t.out, t.outKnown 0, t.outKnown 7)) =
      some ([(0, 4), (1, 5)], false, false) := by decide

/-- R36: a reset outside a launch leaves OUT readable. -/
theorem test_reset_at_rest :
    after (exec .hReset { State.reset with out := [(0, 4)] }) (fun t => (t.out, t.outKnown 0)) =
      some ([(0, 4)], true) := by decide

/-- R61, R231: after an abandoned launch a finished one makes its stream readable again, and no more. -/
theorem test_fin_settles_stream :
    after (exec .uFin { oneRowFin with settled := some [] }) (fun t => (t.outKnown 7, t.outKnown 8)) =
      some (true, false) := by decide

/-- U7, Table R189: a byte the host stores after an abandoned launch is what it reads. -/
theorem test_stored_byte_is_known :
    after (hostStoreOut 3 9 { State.reset with settled := some [] })
      (fun t => (t.outKnown 2, t.outKnown 4, after (hostLoadOut 3 t) (·.rdata))) = some (false, false, some 9) := by
  decide

/-! ### The pure functions -/

/-- V2.1.4, V2.1.7 and V2.1.10. -/
theorem test_stride : strideOf 10 = 12 ∧ strideOf 257 = 260 ∧ strideOf 4294967293 = 2 ^ 32 := by decide

/-- V2.4.11 and V2.4.12, by the three definitions. -/
theorem test_look_ahead :
    litLen [9, 9, 8, 8, 7, 7, 6, 6] = 8 ∧ litLenHopping [1, 2, 1, 2, 2, 2, 2, 1] = 3 ∧
    litLenBytewise [1, 2, 1, 2, 2, 2, 2, 1] = 3 := by decide

/-- V2.6.13 and V2.6.16. -/
theorem test_enc_row :
    encRow [1, 2, 3, 4, 4, 4, 4, 4] = [0x00, 0x03, 1, 2, 3, 0x00, 0x05, 4] ∧
    encRow [3, 3, 3, 3, 3, 3, 8, 8] = [0x06, 3, 0x01, 8, 0x01, 8] := by decide

/-- V2.7.1: equal bytes across the row boundary are two runs. -/
theorem test_encode :
    encodeImage [(0, 1), (1, 1), (2, 1), (3, 1), (4, 1), (5, 1), (6, 1), (7, 1)] 4 8 16 =
      .ok [0x04, 1, 0, 0, 0x04, 1, 0, 1] := by decide

/-! ### Witnesses: a state that meets each statement's hypotheses -/

theorem witness_DecodeOfEncodeIsTheOperation : Instr.wf (.tAbs [5, 5, 9]) = true := by decide

theorem witness_TokenIsReadInFrontOfAnyStream :
    Instr.wf (.tAbs [5, 5, 9]) = true ∧ encode (.tAbs [5, 5, 9]) = .stream [0, 3, 5, 5, 9, 0] := by decide

theorem witness_EncodeOfDecodedWriteIsTheWord :
    (0xA0000012C : BitVec 36).extractLsb' 35 1 = 1 ∧
      decodeCommand 0xA0000012C = .ok (.hWriteCfg .width 300) := by decide

/-- Both lengths the header gives: a short token, and the longest one. -/
theorem witness_TokenLengthFollowsFromTheHeader :
    decodeToken [0x01, 0x07, 0x00] = .ok (.tRepeat 1 7, [0x00]) ∧
    decodeToken [0x00, 0x03, 1, 2, 3, 0, 9] = .ok (.tAbs [1, 2, 3], [9]) ∧
    (decodeToken (0x00 :: 0xFF :: List.replicate 257 1)).map (fun r => r.2.length) = .ok 1 := by decide +kernel

theorem witness_StepRunsTheDecodedOperation :
    decode (.phase oneRow.phase.code oneRow.guard) = .ok (.uDetect, []) ∧
    decode (.command 0x800000001) = .ok (.hStart 0, []) ∧
    oneRow.reader.ended = false ∧ decode (.stream [10, 7, 0, 1]) = .ok (.tRepeat 10 7, [0, 1]) := by decide

theorem witness_OtherWritesChangeNothing :
    ((0 : BitVec 3) = 0 ∧ (0xFFFFFFFE : Word).extractLsb' 0 1 = 0) ∧
      step { State.reset with turns := [Turn.of (.command (commandWord 1 7 1))] } = .next State.reset := by
  exact ⟨by decide, rfl⟩

theorem witness_CoreIsQuiescentAtRest : State.reset.phase = .idle := rfl

theorem witness_ExactlyOneMicroOperationIsEnabled :
    oneRow.busy = true ∧ oneRow.p.toNat ≤ oneRow.stride.toNat ∧ State.reset.busy = false := by decide

/-- One state for each branch of H_START: BUSY = 1, the four checks, and all passed. -/
theorem witness_HStartFollowsItsPseudocode :
    oneRow.busy = true ∧ configured.busy = false ∧
    checkLaunch 0 4 8 = some 1 ∧ checkLaunch 4 0 8 = some 2 ∧ checkLaunch 4 6 16 = some 3 ∧
    checkLaunch 4 4 7 = some 4 ∧ checkLaunch 4 4 8 = none := by decide

theorem witness_HWriteCfgFollowsItsPseudocode : configured.busy = false ∧ oneRow.busy = true := by decide

/-- A run of exactly 3, and the row of R120's example with a run of 2. -/
theorem witness_UDetectFollowsItsPseudocode :
    oneRow.phase = .scan ∧ oneRow.p.toNat < oneRow.stride.toNat ∧ runLen (oneRow.pix.readBytes 0 4) = 2 ∧
    runLen (Memory.readBytes [(0, 1), (1, 2), (2, 2), (3, 2)] 1 3) = 3 := by decide

theorem witness_UEolFollowsItsPseudocode :
    ∃ s : State, s.phase = .scan ∧ s.p = s.stride ∧ s.out.wf = true ∧ s.outptr.toNat + 2 < 2 ^ 32 ∧
      s.rowoff.toNat + s.stride.toNat < 2 ^ 32 := ⟨{ oneRow with p := 4, outptr := 6 }, by decide⟩

theorem witness_UFinFollowsItsPseudocode :
    oneRowFin.phase = .fin ∧ oneRowFin.out.wf = true ∧ 2 ≤ oneRowFin.outptr.toNat := by decide

/-- RL at 255, where the run is spent, and at 256, where it goes on. -/
theorem witness_URepeatFollowsItsPseudocode :
    ∀ rl : Word, rl = 255 ∨ rl = 256 → (running rl).phase = .run ∧ (running rl).out.wf = true ∧
      (running rl).outptr.toNat + 2 < 2 ^ 32 ∧ (running rl).p.toNat + min (running rl).rl.toNat 255 < 2 ^ 32 := by
  rintro rl (rfl | rfl) <;> decide

/-- N at 3, 255 and 256. -/
theorem witness_UAbsFollowsItsPseudocode :
    ∀ n : Word, n = 3 ∨ n = 255 ∨ n = 256 → (literal n []).phase = .lit ∧ 3 ≤ (literal n []).n.toNat ∧
      (literal n []).out.wf = true ∧
      (literal n []).outptr.toNat + (2 + min n.toNat 255 + min n.toNat 255 % 2) < 2 ^ 32 ∧
      (literal n []).p.toNat + min n.toNat 255 < 2 ^ 32 := by
  rintro n (rfl | rfl | rfl) <;> decide

/-- N at 1 and at 2. -/
theorem witness_UShortFollowsItsPseudocode :
    ∀ n : Word, n = 1 ∨ n = 2 → (literal n []).phase = .lit ∧
      ((literal n []).n.toNat = 1 ∨ (literal n []).n.toNat = 2) ∧ (literal n []).out.wf = true ∧
      (literal n []).outptr.toNat + 2 < 2 ^ 32 ∧ (literal n []).p.toNat + 1 < 2 ^ 32 := by
  rintro n (rfl | rfl) <;> decide

theorem witness_MicroOperationsLeaveTheRestAlone :
    ∃ t, Instr.uFin ∈ microOperations ∧ exec .uFin oneRowFin = .next t ∧ oneRowFin.out.wf = true :=
  ⟨_, by decide, rfl, by decide⟩

/-- A state in which each operation answers a next state. -/
theorem witness_PhaseMovesAreTheTable :
    (∃ t, exec .uDetect oneRow = .next t) ∧ (∃ t, exec .uEol { oneRow with p := 4 } = .next t) ∧
    (∃ t, exec .uRepeat (running 256) = .next t) ∧ (∃ t, exec .uAbs (literal 3 []) = .next t) ∧
    (∃ t, exec .uShort (literal 1 []) = .next t) ∧ (∃ t, exec .uFin oneRowFin = .next t) ∧
    (∃ t, exec (.hStart 0) oneRow = .next t) ∧ ∃ t, exec .hReset oneRow = .next t :=
  ⟨⟨_, rfl⟩, ⟨_, rfl⟩, ⟨_, rfl⟩, ⟨_, rfl⟩, ⟨_, rfl⟩, ⟨_, rfl⟩, ⟨_, rfl⟩, ⟨_, rfl⟩⟩

theorem witness_TRepeatStandsForItsRun : State.reset.reader.ended = false := rfl

theorem witness_TAbsStandsForItsPayload : (reading [1]).reader.ended = false := rfl

theorem witness_MarkersStandForNoByte : State.reset.reader.ended = false ∧ State.reset.reader.rest = [] := ⟨rfl, rfl⟩

/-- After the end, and an end-of-bitmap marker with a byte behind it. -/
theorem witness_NothingFollowsTheEndOfBitmap :
    isToken .tEol = true ∧ Instr.tEol ≠ .tDelta ∧
    ({ State.reset with reader := { rest := [], out := [], markers := 1, ended := true } } : State).reader.ended = true ∧
    isToken .tEob = true ∧ Instr.tEob ≠ .tDelta ∧ (reading [0]).reader.rest ≠ [] := by decide

theorem witness_ReaderIsOutsideTheBlock :
    (∃ t, exec .tEol State.reset = .next t ∧ isToken .tEol = true) ∧
    ∃ t, exec .uDetect oneRow = .next t ∧ isToken .uDetect = false := ⟨⟨_, rfl, rfl⟩, ⟨_, rfl, rfl⟩⟩

/-- A stream `Decode` accepts and one it refuses, each before a reader with its turns. -/
theorem witness_ReaderComputesDecode :
    decodeStream [0x03, 0xAB, 0x00, 0x01] = some ([0xAB, 0xAB, 0xAB], 1) ∧ decodeStream [0x03, 0xAB] = none ∧
    ∀ bytes : List Byte, ∃ s : State,
      s.reader = { rest := bytes, out := [], markers := 0, ended := false } ∧
        s.turns = List.replicate (bytes.length + 1) { reset := false, move := .reader } :=
  ⟨by decide, by decide, fun bytes => ⟨{ reading bytes with turns := _ }, rfl, rfl⟩⟩

/-- The first and the last position of a row (V2.2.5's shape). -/
theorem witness_RunLenIsTheLongestRun :
    0 < [(5 : Byte), 5, 9, 0].length ∧ runLen [(5 : Byte), 5, 9, 0] = 2 ∧ runLen ([(5 : Byte), 5, 9, 0].drop 3) = 1 := by
  decide

/-- A stretch that reaches the row's end, and one that a run stops (V2.4.3). -/
theorem witness_LitLenIsTheDistanceToTheRun :
    0 < [(5 : Byte), 5, 9, 0].length ∧ runLen ([(5 : Byte), 5, 9, 0].drop 0) < 3 ∧ litLen [(5 : Byte), 5, 9, 0] = 4 ∧
    runLen ([(1 : Byte), 2, 2, 2].drop 0) < 3 ∧ litLen [(1 : Byte), 2, 2, 2] = 1 := by decide

theorem witness_TheThreeLookAheadsAgree :
    0 < [(1 : Byte), 2, 2, 2].length ∧ runLen ([(1 : Byte), 2, 2, 2].drop 0) < 3 := by decide

theorem witness_LiteralStretchHoldsNoThreeEqual :
    runLen [(5 : Byte), 5, 9, 0] < 3 ∧ 0 + 2 < litLen [(5 : Byte), 5, 9, 0] ∧
    runLen [(1 : Byte), 2, 2, 2] < 3 ∧ litLen [(1 : Byte), 2, 2, 2] < [(1 : Byte), 2, 2, 2].length := by decide

theorem witness_EncRunPeelsChunks : encRun 256 0xAB = [0xFF, 0xAB] ++ encRun 1 0xAB := by decide

/-- V2.5.2 and V2.5.3: a stretch of 2 and one of 3. -/
theorem witness_EncLitPeelsChunks :
    encLit [0, 1] = [0x01, 0] ++ encLit [1] ∧ encLit [0, 1, 2] = [0x00, 0x03, 0, 1, 2, 0x00] := by decide

theorem witness_RowWithMarkerCostsAtMostTwice :
    [(5 : Byte), 5, 9, 0] ≠ [] ∧ [(5 : Byte), 5, 9, 0].length % 4 = 0 := by decide

theorem witness_EncodedSizeIsBounded :
    encodeImage oneRow.pix 4 4 8 = .ok [0x00, 0x04, 5, 5, 9, 0, 0x00, 0x01] := by decide

/-- V2.1.3: 5 and 8 have the same stride. -/
theorem witness_WidthMattersOnlyThroughTheStride : strideOf 5 = strideOf 8 := by decide

theorem witness_DecodeOfTheStreamIsTheImage :
    encodeImage oneRow.pix 4 4 8 = .ok [0x00, 0x04, 5, 5, 9, 0, 0x00, 0x01] ∧
      decodeStream [0x00, 0x04, 5, 5, 9, 0, 0x00, 0x01] = some ([5, 5, 9, 0], 1) := by decide

theorem oneRow_buffersWf : oneRow.BuffersWf := by unfold State.BuffersWf; decide

theorem oneRowFin_buffersWf : oneRowFin.BuffersWf := by unfold State.BuffersWf; decide

theorem oneRow_statusOk : oneRow.StatusOk := by unfold State.StatusOk; decide

theorem oneRow_launchOk : oneRow.LaunchOk :=
  fun _ =>
    ⟨⟨by decide, by decide, by decide, by decide, by decide, by decide, by decide, by decide, by decide, by decide,
        by decide, by decide, by decide⟩,
      ⟨by decide, by decide, by decide, by decide⟩⟩

theorem oneRowFin_launchOk : oneRowFin.LaunchOk :=
  fun _ =>
    ⟨⟨by decide, by decide, by decide, by decide, by decide, by decide, by decide, by decide, by decide, by decide,
        by decide, by decide, by decide⟩,
      ⟨by decide, by decide, by decide, by decide⟩⟩

theorem witness_BuffersStayCanonical : oneRow.BuffersWf ∧ ∃ t, step oneRow = .next t :=
  ⟨oneRow_buffersWf, _, rfl⟩

theorem witness_StatusStaysInOrder : oneRow.StatusOk ∧ ∃ t, step oneRow = .next t := ⟨oneRow_statusOk, _, rfl⟩

/-- A state in each of the four classes of PHASE. -/
theorem witness_StatusTakesSevenValues :
    State.reset.StatusOk ∧ oneRow.StatusOk ∧
    ({ State.reset with phase := .done, encSize := 8 } : State).StatusOk ∧
    ({ State.reset with phase := .error, errCode := 4 } : State).StatusOk := by
  unfold State.StatusOk; decide

theorem witness_LaunchInvariantIsKept : oneRow.BuffersWf ∧ oneRow.LaunchOk ∧ oneRow.busy = true ∧
    ∃ t, step oneRow = .next t := ⟨oneRow_buffersWf, oneRow_launchOk, rfl, _, rfl⟩

/-- Two states that differ in registers dead in SCAN, RL, VAL and N. -/
theorem witness_DeadRegistersDoNotMatter :
    oneRow.SameLive { oneRow with rl := 7, val := 3, n := 9 } ∧ oneRow ≠ { oneRow with rl := 7, val := 3, n := 9 } := by
  unfold State.SameLive State.SameConfig State.SameResult State.SameOutside
  decide

theorem witness_BlockNeverStops : oneRowFin.LaunchOk ∧ oneRowFin.BlockTurn := ⟨oneRowFin_launchOk, trivial⟩

theorem witness_LaunchInputsAreFixed : oneRow.busy = true ∧ (∃ t, step oneRow = .next t) ∧
    ∀ turn ∈ oneRow.turns.head?, turn.reset = false := ⟨rfl, ⟨_, rfl⟩, by decide⟩

theorem witness_FinishedLaunchHoldsTheStream :
    oneRowFin.BuffersWf ∧ oneRowFin.LaunchOk ∧ oneRowFin.phase = .fin :=
  ⟨oneRowFin_buffersWf, oneRowFin_launchOk, rfl⟩

/-- An image `Encode` accepts and one it refuses, each before the H_START. -/
theorem witness_LaunchComputesEncode :
    configured.busy = false ∧ configured.BuffersWf ∧
    configured.encoded = .ok [0x00, 0x04, 5, 5, 9, 0, 0x00, 0x01] ∧
    State.reset.busy = false ∧ State.reset.BuffersWf ∧ State.reset.encoded = .error 1 ∧
    (∃ s : State, s.turns = [{ reset := false, move := .command (commandWord 1 0 ((0 : BitVec 31) ++ (1 : BitVec 1))) }]) := by
  refine ⟨by decide, ?_, by decide, by decide, ?_, by decide, { State.reset with turns := _ }, rfl⟩ <;>
  · unfold State.BuffersWf; decide

theorem witness_HostAccessesFollowTheirDuties :
    oneRow.busy = true ∧ configured.busy = false ∧ configured.BuffersWf ∧
    configured.outKnown 0 = true ∧ ({ configured with settled := some [(0, 2)] } : State).outKnown 1 = true ∧
    ({ configured with settled := some [(0, 2)] } : State).outKnown 2 = false := by
  unfold State.BuffersWf; decide

theorem witness_ResetDuringALaunchLeavesOutUndefined : oneRow.busy = true := by decide

theorem witness_KnownBytesStayKnown :
    ∃ t, step configured = .next t ∧ configured.outKnown 3 = true ∧ t.busy = false := ⟨_, rfl, by decide, by decide⟩

end Sys2Proof.Tests
end

section
/-! The reader of the token stream against the block (R5, R92, log 2): a token changes the reader alone, and no other
operation reads or writes it. -/

namespace Sys2Proof.Machine

variable {s t : State} {i : Instr}

/-! ### Tokens -/

/-- A token that answers a next state has changed the reader at most. -/
theorem exec_token_frame (hi : isToken i = true) (h : exec i s = .next t) : t = { s with reader := t.reader } := by
  have hframe : ∀ {r : Reader}, s.whenReading r = .next t → t = { s with reader := t.reader } := by
    intro r h
    obtain ⟨-, rfl⟩ := State.whenReading_eq_next h
    rfl
  cases i with
  | tEol => exact hframe h
  | tEob =>
    simp only [exec, execTEob] at h
    split at h
    · exact hframe h
    · cases h
  | tDelta => cases h
  | tAbs payload => exact hframe h
  | tRepeat count value => exact hframe h
  | _ => cases hi

/-! ### Effects that do not see the reader -/

/-- The effect neither reads nor writes the reader: replacing the reader before it or after it is the same. -/
def EffectIgnoresReader (f : State → State) : Prop :=
  ∀ s r, f { s with reader := r } = { f s with reader := r }

/-- The operation, where it answers a next state, neither reads nor writes the reader. -/
def OutcomeIgnoresReader (f : State → Host.Outcome State Fault Refusal) : Prop :=
  ∀ s t, f s = .next t → ∀ r, f { s with reader := r } = .next { t with reader := r }

/-- An operation that does not read the reader leaves it as it was: it gives the same result for the reader it found. -/
theorem OutcomeIgnoresReader.reader_eq {f : State → Host.Outcome State Fault Refusal} (hf : OutcomeIgnoresReader f)
    (h : f s = .next t) : t.reader = s.reader := by
  have ht : t = { t with reader := s.reader } := Host.Outcome.next.inj (h.symm.trans (hf s t h s.reader))
  rw [ht]

theorem EffectIgnoresReader.ite {c : State → Prop} [DecidablePred c] {f g : State → State}
    (hc : ∀ s r, c { s with reader := r } ↔ c s) (hf : EffectIgnoresReader f) (hg : EffectIgnoresReader g) :
    EffectIgnoresReader (fun s => if c s then f s else g s) := by
  intro s r
  by_cases h : c s
  · simpa only [h, hc s r, if_true] using hf s r
  · simpa only [h, hc s r, if_false] using hg s r

/-- An operation accepted in every state ignores the reader as its effect does. -/
theorem OutcomeIgnoresReader.next {f : State → State} (hf : EffectIgnoresReader f) :
    OutcomeIgnoresReader (fun s => .next (f s)) := by
  rintro s _ ⟨⟩ r
  exact congrArg Host.Outcome.next (hf s r)

/-- A guarded micro-operation ignores the reader where its guard and its effect do. -/
theorem OutcomeIgnoresReader.whenSelected {selected : State → Bool} {f : State → State}
    (hsel : ∀ s r, selected { s with reader := r } = selected s) (hf : EffectIgnoresReader f) :
    OutcomeIgnoresReader (fun s => State.whenSelected (selected s) (f s)) := by
  intro s t h r
  obtain ⟨hs, rfl⟩ := State.whenSelected_eq_next.mp h
  exact State.whenSelected_eq_next.mpr ⟨(hsel s r).trans hs, (hf s r).symm⟩

/-! ### The micro-operations -/

theorem detectStep_ignoresReader : EffectIgnoresReader State.detectStep :=
  .ite (c := fun s => 3 ≤ runLen s.rowRest) (fun _ _ => Iff.rfl) (fun _ _ => rfl) (fun _ _ => rfl)

theorem execUDetect_ignoresReader : OutcomeIgnoresReader execUDetect :=
  .whenSelected (fun _ _ => rfl) detectStep_ignoresReader

theorem execUEol_ignoresReader : OutcomeIgnoresReader execUEol :=
  .whenSelected (f := State.eolStep) (fun _ _ => rfl) (fun _ _ => rfl)

theorem execURepeat_ignoresReader : OutcomeIgnoresReader execURepeat :=
  .whenSelected (f := fun s => s.repeatStep (min s.rl.toNat 255)) (fun _ _ => rfl) (fun _ _ => rfl)

theorem execUAbs_ignoresReader : OutcomeIgnoresReader execUAbs :=
  .whenSelected (f := fun s => s.absStep (min s.n.toNat 255)) (fun _ _ => rfl) (fun _ _ => rfl)

theorem execUShort_ignoresReader : OutcomeIgnoresReader execUShort :=
  .whenSelected (f := State.shortStep) (fun _ _ => rfl) (fun _ _ => rfl)

/-- U_FIN's fault test (log 7) looks at PHASE and OUTPTR only. -/
theorem execUFin_ignoresReader : OutcomeIgnoresReader execUFin := by
  have hsel : OutcomeIgnoresReader (fun s => State.whenSelected (s.phase == .fin) s.finStep) :=
    .whenSelected (fun _ _ => rfl) (fun _ _ => rfl)
  intro s t h r
  unfold execUFin at h ⊢
  split at h
  · cases h
  · rename_i hfault
    rw [if_neg hfault]
    exact hsel s t h r

/-! ### The host commands -/

theorem startStep_ignoresReader : EffectIgnoresReader State.startStep := by
  intro s r
  unfold State.startStep
  cases checkLaunch s.width.toNat s.imageSize.toNat s.outCap.toNat <;> rfl

theorem execHStart_ignoresReader (ignored : BitVec 31) : OutcomeIgnoresReader (execHStart ignored) :=
  .next (.ite (c := fun s => s.busy = true) (fun _ _ => Iff.rfl) (fun _ _ => rfl) startStep_ignoresReader)

theorem setConfig_ignoresReader (reg : CfgReg) (data : Word) :
    EffectIgnoresReader (fun s => s.setConfig reg data) := by
  intro s r
  cases reg <;> rfl

theorem execHWriteCfg_ignoresReader (reg : CfgReg) (data : Word) :
    OutcomeIgnoresReader (execHWriteCfg reg data) :=
  .next (.ite (c := fun s => s.busy = true) (fun _ _ => Iff.rfl) (fun _ _ => rfl) (setConfig_ignoresReader reg data))

theorem execHRead_ignoresReader (reg : BitVec 3) : OutcomeIgnoresReader (execHRead reg) :=
  .next (f := fun s => { s with rdata := s.register reg }) (fun _ _ => rfl)

theorem execHReset_ignoresReader : OutcomeIgnoresReader execHReset :=
  .next (f := State.resetStep) (fun _ _ => rfl)

/-! ### All operations -/

/-- No operation but a token reads or writes the reader. -/
theorem exec_ignoresReader (hi : isToken i = false) : OutcomeIgnoresReader (exec i) := by
  cases i with
  | uDetect => exact execUDetect_ignoresReader
  | uEol => exact execUEol_ignoresReader
  | uRepeat => exact execURepeat_ignoresReader
  | uAbs => exact execUAbs_ignoresReader
  | uShort => exact execUShort_ignoresReader
  | uFin => exact execUFin_ignoresReader
  | hStart ignored => exact execHStart_ignoresReader ignored
  | hWriteCfg reg data => exact execHWriteCfg_ignoresReader reg data
  | hRead reg => exact execHRead_ignoresReader reg
  | hReset => exact execHReset_ignoresReader
  | _ => cases hi

/-- Settles O28: a token's effect is framed by `exec_token_frame`; every other operation commutes with a change of the
reader, and so leaves the reader it found. -/
theorem readerIsOutsideTheBlock : Obligations.ReaderIsOutsideTheBlock := by
  intro s t i h
  refine ⟨fun hi => exec_token_frame hi h, fun hi => ?_⟩
  have hblind := exec_ignoresReader hi
  exact ⟨hblind.reader_eq h, hblind s t h⟩

end Sys2Proof.Machine
end

section
/-! What every step keeps: an invariant is proved from one closure lemma per effect of a step, and each invariant of the
block's state is then a few small goals. Here: the canonical form of the buffers and the order of STATUS. -/

namespace Sys2Proof.Machine

variable {s t : State} {i : Instr}

/-! ### What the micro-operations leave unchanged -/

/-- No micro-operation writes PIX, a configuration register or ERR_CODE, or touches what lies outside the block. -/
theorem micro_frame (hi : i ∈ microOperations) (h : exec i s = .next t) :
    s.SameConfig t ∧ s.SameOutside t ∧ t.pix = s.pix ∧ t.errCode = s.errCode := by
  obtain ⟨-, -, -, rfl⟩ | ⟨-, -, -, rfl⟩ | ⟨-, -, rfl⟩ | ⟨-, -, -, rfl⟩ | ⟨-, -, -, rfl⟩ | ⟨-, -, -, rfl⟩ :=
    micro_cases hi h
  case inl => unfold State.detectStep; split <;> exact ⟨⟨rfl, rfl, rfl⟩, ⟨rfl, rfl, rfl⟩, rfl, rfl⟩
  all_goals exact ⟨⟨rfl, rfl, rfl⟩, ⟨rfl, rfl, rfl⟩, rfl, rfl⟩

/-- Only U_FIN writes ENC_SIZE and what the host can rely on. -/
theorem micro_result (hi : i ∈ microOperations) (h : exec i s = .next t) (hne : i ≠ .uFin) :
    t.encSize = s.encSize ∧ t.settled = s.settled := by
  obtain ⟨-, -, -, rfl⟩ | ⟨-, -, -, rfl⟩ | ⟨-, -, rfl⟩ | ⟨-, -, -, rfl⟩ | ⟨-, -, -, rfl⟩ | ⟨rfl, -⟩ := micro_cases hi h
  case inl => unfold State.detectStep; split <;> exact ⟨rfl, rfl⟩
  case inr.inr.inr.inr.inr => exact absurd rfl hne
  all_goals exact ⟨rfl, rfl⟩

theorem State.detectStep_out : s.detectStep.out = s.out := by unfold State.detectStep; split <;> rfl

/-- A micro-operation stores a byte sequence in OUT, from OUTPTR on or, for U_FIN, from OUTPTR - 2 on (R54, R122). -/
theorem micro_out (hi : i ∈ microOperations) (h : exec i s = .next t) :
    ∃ bytes, t.out = s.out.writeBytes (s.outptr.toNat - if i = .uFin then 2 else 0) bytes := by
  obtain ⟨rfl, -, -, rfl⟩ | ⟨rfl, -, -, rfl⟩ | ⟨rfl, -, rfl⟩ | ⟨rfl, -, -, rfl⟩ | ⟨rfl, -, -, rfl⟩ | ⟨rfl, -, -, rfl⟩ :=
    micro_cases hi h
  case inl => exact ⟨[], State.detectStep_out⟩
  all_goals exact ⟨_, rfl⟩

/-- Settles O21: the frame, the result registers and the one stretch of OUT each micro-operation stores in. -/
theorem microOperationsLeaveTheRestAlone : Obligations.MicroOperationsLeaveTheRestAlone := by
  intro s t i hi h
  obtain ⟨hconfig, houtside, hpix, herr⟩ := micro_frame hi h
  refine ⟨hconfig, houtside, hpix, herr, micro_result hi h, ?_, ?_⟩
  · rintro rfl
    obtain ⟨-, rfl⟩ := State.whenSelected_eq_next.mp h
    exact State.detectStep_out
  · intro hwf a ha
    obtain ⟨bytes, hout⟩ := micro_out hi h
    rw [hout]
    exact Memory.read_writeBytes_outside hwf (.inl (by omega))

/-! ### How the micro-operations move PHASE -/

/-- A micro-operation runs while BUSY = 1 only. -/
theorem micro_busy (hi : i ∈ microOperations) (h : exec i s = .next t) : s.busy = true := by
  refine Phase.busy_iff.mpr ?_
  obtain ⟨-, hp, -⟩ | ⟨-, hp, -⟩ | ⟨-, hp, -⟩ | ⟨-, hp, -⟩ | ⟨-, hp, -⟩ | ⟨-, hp, -⟩ := micro_cases hi h <;> simp [hp]

theorem State.detectStep_phase : s.detectStep.phase = if 3 ≤ runLen s.rowRest then .run else .lit := by
  unfold State.detectStep; split <;> rfl

/-- Every micro-operation but U_FIN leaves BUSY = 1 (Table R123). -/
theorem micro_stays_busy (hi : i ∈ microOperations) (h : exec i s = .next t) (hne : i ≠ .uFin) : t.busy = true := by
  have hite : ∀ {c : Prop} [Decidable c] {a b : Phase}, a.busy = true → b.busy = true →
      (if c then a else b).busy = true := by
    intro c _ a b ha hb; split <;> assumption
  obtain ⟨-, -, -, rfl⟩ | ⟨-, -, -, rfl⟩ | ⟨-, -, rfl⟩ | ⟨-, -, -, rfl⟩ | ⟨-, -, -, rfl⟩ | ⟨rfl, -⟩ := micro_cases hi h
  case inl => rw [State.busy, State.detectStep_phase]; exact hite rfl rfl
  case inr.inr.inr.inr.inr => exact absurd rfl hne
  all_goals exact hite rfl rfl

/-- U_FIN ends in DONE. -/
theorem uFin_phase (h : exec .uFin s = .next t) : t.phase = .done := by
  obtain ⟨⟨⟩, -⟩ | ⟨⟨⟩, -⟩ | ⟨⟨⟩, -⟩ | ⟨⟨⟩, -⟩ | ⟨⟨⟩, -⟩ | ⟨-, -, -, rfl⟩ := micro_cases (by decide) h
  rfl

/-! ### Invariants of the step -/

/-- Each effect a step can have keeps `I`: the step's own bookkeeping and all that lies outside the block, the
micro-operations, the host commands that are not ignored, reset, and the host's stores. -/
structure KeptByEffects (I : State → Prop) : Prop where
  outside : ∀ {s : State} (turns : List Turn) (rdata : Word) (fresh : Nat) (reader : Reader), I s →
    I { s with turns := turns, rdata := rdata, fresh := fresh, reader := reader }
  micro : ∀ {s t : State} {i : Instr}, I s → i ∈ microOperations → exec i s = .next t → I t
  start : ∀ {s : State}, I s → s.busy = false → I s.startStep
  setConfig : ∀ {s : State} (reg : CfgReg) (data : Word), I s → s.busy = false → I (s.setConfig reg data)
  reset : ∀ {s : State}, I s → I s.resetStep
  storePix : ∀ {s : State} (a : Nat) (v : Byte), I s → s.busy = false → I { s with pix := s.pix.write a v }
  storeOut : ∀ {s : State} (a : Nat) (v : Byte), I s → s.busy = false →
    I ({ s with out := s.out.write a v }.settle a 1)

namespace KeptByEffects

variable {I : State → Prop} (hI : KeptByEffects I)
include hI

/-- Every operation keeps `I`. -/
theorem exec (hs : I s) (h : Machine.exec i s = .next t) : I t := by
  cases i with
  | hStart ignored =>
    cases h
    split
    · exact hs
    · next hb => exact hI.start hs (by simpa using hb)
  | hWriteCfg reg data =>
    cases h
    split
    · exact hs
    · next hb => exact hI.setConfig reg data hs (by simpa using hb)
  | hRead reg => cases h; exact hI.outside s.turns _ s.fresh s.reader hs
  | hReset => cases h; exact hI.reset hs
  | uDetect | uEol | uRepeat | uAbs | uShort | uFin => exact hI.micro hs (by decide) h
  | tEol | tEob | tDelta | tAbs | tRepeat =>
    rw [exec_token_frame rfl h]
    exact hI.outside s.turns s.rdata s.fresh _ hs

/-- Every step keeps `I`, whichever agent moves. -/
theorem step (hs : I s) (h : Machine.step s = .next t) : I t := by
  cases step_cases h with
  | idle turns h => rw [h]; exact hI.outside turns s.rdata s.fresh s.reader hs
  | micro turns i _ h => exact hI.exec (hI.outside turns s.rdata s.fresh s.reader hs) h
  | command turns i _ _ h => exact hI.exec (hI.outside turns s.rdata s.fresh s.reader hs) h
  | reset turns _ h => exact hI.exec (hI.outside turns s.rdata s.fresh s.reader hs) h
  | token turns i rest _ h => exact hI.exec (hI.outside turns s.rdata s.fresh { s.reader with rest := rest } hs) h
  | storePix turns a v hb h =>
    rw [h]; exact hI.storePix a v (hI.outside turns s.rdata s.fresh s.reader hs) hb
  | storeOut turns a v hb h =>
    rw [h]; exact hI.storeOut a v (hI.outside turns s.rdata s.fresh s.reader hs) hb
  | load turns v k h => rw [h]; exact hI.outside turns v k s.reader hs

end KeptByEffects

/-! ### The effects of the host commands on PIX, OUT and PHASE -/

/-- An H_START leaves both buffers alone (R211). -/
theorem State.startStep_buffers : s.startStep.pix = s.pix ∧ s.startStep.out = s.out := by
  unfold State.startStep; split <;> exact ⟨rfl, rfl⟩

/-- A configuration write changes the configuration registers at most. -/
theorem State.setConfig_frame (reg : CfgReg) (data : Word) : ∃ width imageSize outCap,
    s.setConfig reg data = { s with width := width, imageSize := imageSize, outCap := outCap } := by
  cases reg <;> exact ⟨_, _, _, rfl⟩

/-! ### The canonical form of the buffers -/

theorem buffersWf_keptByEffects : KeptByEffects State.BuffersWf where
  outside _ _ _ _ hs := hs
  micro := by
    rintro s t i ⟨hpix, hout⟩ hi h
    obtain ⟨-, -, hp, -⟩ := micro_frame hi h
    obtain ⟨bytes, ho⟩ := micro_out hi h
    exact ⟨hp ▸ hpix, ho ▸ Memory.wf_writeBytes hout⟩
  start := by
    rintro s hs -
    unfold State.BuffersWf
    rw [State.startStep_buffers.1, State.startStep_buffers.2]
    exact hs
  setConfig := by
    rintro s reg data hs -
    obtain ⟨_, _, _, h⟩ := s.setConfig_frame reg data
    rw [h]
    exact hs
  reset hs := hs
  storePix _ _ hs _ := ⟨Memory.wf_write hs.1, hs.2⟩
  storeOut _ _ hs _ := ⟨hs.1, Memory.wf_write hs.2⟩

/-- Settles O42: every store keeps the canonical form, and nothing else writes a buffer. -/
theorem buffersStayCanonical : Obligations.BuffersStayCanonical :=
  fun _ _ hs h => buffersWf_keptByEffects.step hs h

/-! ### STATUS -/

/-- While BUSY = 1, STATUS in order says that ERR_CODE and ENC_SIZE are 0. -/
theorem State.statusOk_iff_of_busy (hb : s.busy = true) : s.StatusOk ↔ s.errCode = 0 ∧ s.encSize = 0 := by
  have hne : s.phase ≠ .error ∧ s.phase ≠ .done := by
    constructor <;> intro hp <;> simp [State.busy, hp, Phase.busy] at hb
  simp only [State.StatusOk, hne.1, hne.2, iff_false, ne_eq, not_not, not_false_eq_true, forall_const]
  exact ⟨fun ⟨h0, _, he⟩ => ⟨h0, he⟩, fun ⟨h0, he⟩ => ⟨h0, by simp [h0], he⟩⟩

/-- The checks of an H_START give the codes 1 to 4 (R201). -/
theorem checkLaunch_code {w size cap : Nat} {code : BitVec 4} (h : checkLaunch w size cap = some code) :
    code ≠ 0 ∧ code.toNat ≤ 4 := by
  unfold checkLaunch at h
  split_ifs at h <;> cases h <;> decide

/-- An H_START that is not ignored puts STATUS in order, whatever it was before. -/
theorem State.startStep_statusOk (hb : s.busy = false) : s.startStep.StatusOk := by
  cases hc : checkLaunch s.width.toNat s.imageSize.toNat s.outCap.toNat with
  | none =>
    rw [State.startStep_of_none hc]
    exact (State.statusOk_iff_of_busy rfl).mpr ⟨rfl, rfl⟩
  | some code =>
    obtain ⟨hne, hle⟩ := checkLaunch_code hc
    rw [State.startStep_of_error hb hc]
    exact ⟨iff_of_true hne rfl, hle, fun _ => rfl⟩

theorem statusOk_keptByEffects : KeptByEffects State.StatusOk where
  outside _ _ _ _ hs := hs
  micro := by
    intro s t i hs hi h
    obtain ⟨herr, henc⟩ := (State.statusOk_iff_of_busy (micro_busy hi h)).mp hs
    obtain ⟨-, -, -, herr'⟩ := micro_frame hi h
    by_cases hfin : i = .uFin
    · subst hfin
      have hdone := uFin_phase h
      exact ⟨by simp [herr', herr, hdone], by simp [herr', herr], fun hne => absurd hdone hne⟩
    · obtain ⟨henc', -⟩ := micro_result hi h hfin
      exact (State.statusOk_iff_of_busy (micro_stays_busy hi h hfin)).mpr ⟨herr'.trans herr, henc'.trans henc⟩
  start _ hb := State.startStep_statusOk hb
  setConfig := by
    rintro s reg data hs -
    obtain ⟨_, _, _, h⟩ := s.setConfig_frame reg data
    rw [h]
    exact hs
  reset _ := ⟨by simp [State.resetStep], by simp [State.resetStep], fun _ => rfl⟩
  storePix _ _ hs _ := hs
  storeOut _ _ hs _ := hs

/-- Settles O44: only an H_START raises an error, and only U_FIN writes a size, in the step that moves PHASE to DONE. -/
theorem statusStaysInOrder : Obligations.StatusStaysInOrder :=
  fun _ _ hs h => statusOk_keptByEffects.step hs h

/-- The STATUS word for a known ERR_CODE and PHASE. -/
theorem State.status_of {code : BitVec 4} {ph : Phase} (herr : s.errCode = code) (hp : s.phase = ph) : s.status =
    BitVec.ofNat 32 (code.toNat * 16 + ph.isError.toNat * 4 + ph.isDone.toNat * 2 + ph.busy.toNat) := by
  rw [State.status, herr, hp]

/-- Settles O45: ERR_CODE is 0 outside ERROR and 1 to 4 in it, and the flags follow PHASE. -/
theorem statusTakesSevenValues : Obligations.StatusTakesSevenValues := by
  rintro s ⟨herr, hle, -⟩
  have hzero : ∀ {ph : Phase}, s.phase = ph → ph ≠ .error → s.errCode = 0 := fun hp hne => by
    simpa using mt herr.mp (hp ▸ hne)
  refine ⟨fun hp => ?_, fun hb => ?_, fun hp => ?_, fun hp => ?_⟩
  · exact State.status_of (hzero hp (by decide)) hp
  · obtain hp | hp | hp | hp := Phase.busy_iff.mp hb <;> exact State.status_of (hzero hp (by decide)) hp
  · exact State.status_of (hzero hp (by decide)) hp
  · rw [State.status_of rfl hp]
    have hcode : ∀ code : BitVec 4, code ≠ 0 → code.toNat ≤ 4 →
        BitVec.ofNat 32 (code.toNat * 16 + Phase.error.isError.toNat * 4 + Phase.error.isDone.toNat * 2 +
          Phase.error.busy.toNat) ∈ ([0x14, 0x24, 0x34, 0x44] : List Word) := by decide
    exact hcode s.errCode (herr.mpr hp) hle

/-! ### Reset -/

/-- With the host-visible registers 0 and PHASE = IDLE, every register number reads 0 (Table R36). -/
theorem State.register_eq_zero (hp : s.phase = .idle) (herr : s.errCode = 0) (hw : s.width = 0)
    (hs : s.imageSize = 0) (hc : s.outCap = 0) (he : s.encSize = 0) (k : BitVec 3) : s.register k = 0 := by
  have hstatus : s.status = 0 := State.status_of herr hp
  simp [State.register, hstatus, hw, hs, hc, he]

/-- Settles O10: read off the reset state. -/
theorem resetLeavesTheTable : Obligations.ResetLeavesTheTable :=
  ⟨rfl, rfl, rfl, rfl, rfl, rfl, rfl, rfl, State.register_eq_zero rfl rfl rfl rfl rfl rfl⟩

/-- Settles O11: the effect is read off `resetStep`; an asserted reset input runs it with the move still to come. -/
theorem hResetFollowsItsPseudocode : Obligations.HResetFollowsItsPseudocode := by
  refine ⟨rfl, fun s => ⟨⟨s.resetStep, rfl, rfl, rfl, rfl, rfl, rfl, rfl, rfl,
    State.register_eq_zero rfl rfl rfl rfl rfl rfl, rfl, rfl, ⟨rfl, rfl, rfl⟩, fun hb => ?_⟩, ?_, ?_⟩⟩
  · simp [State.resetStep, hb]
  · intros; rfl
  · intro move turns
    exact ⟨_, _, rfl, rfl, rfl⟩

/-- Settles O43: the buffers are empty, and PHASE is IDLE, so no launch is in progress. -/
theorem resetMeetsTheInvariants : Obligations.ResetMeetsTheInvariants :=
  ⟨⟨rfl, rfl⟩, ⟨by decide, by decide, fun _ => rfl⟩, fun hb => absurd hb (by decide)⟩

end Sys2Proof.Machine
end

section
/-! The packers' values as the machine executes them, chunk by chunk, and what a row costs in token bytes: even, at most
twice its source bytes, and with the marker still so (R150, R165, R247). -/

namespace Sys2Proof.Machine

variable {v : Byte} {row bytes : List Byte} {k len : Nat}

/-! ### EncRun -/

@[simp] theorem encRun_zero : encRun 0 v = [] := rfl

/-- EncRun with its first pair split off (R150, R151). -/
theorem encRun_peel (h : 1 ≤ len) :
    encRun len v = repeatBytes (BitVec.ofNat 8 (min len 255)) v ++ encRun (len - min len 255) v := by
  rcases Nat.lt_or_ge len 255 with hlt | hge
  · have hmin : min len 255 = len := by omega
    have hdiv : len / 255 = 0 := by omega
    have hmod : len % 255 = len := by omega
    have hpos : len > 0 := h
    simp [hmin, encRun, hdiv, hmod, hpos]
  · have hmin : min len 255 = 255 := by omega
    have hdiv : len / 255 = (len - 255) / 255 + 1 := by omega
    have hmod : len % 255 = (len - 255) % 255 := by omega
    rw [hmin, encRun, hdiv, hmod, List.replicate_succ, List.flatten_cons, List.append_assoc]
    rfl

theorem encRun_length : (encRun len v).length = 2 * ((len + 254) / 255) := by
  have hflat : ((List.replicate (len / 255) (repeatBytes 255 v)).flatten).length = len / 255 * 2 := by simp
  unfold encRun
  rw [List.length_append, hflat]
  split
  · rw [repeatBytes_length]; omega
  · rw [List.length_nil]; omega

/-! ### EncLit -/

@[simp] theorem encLit_nil : encLit [] = [] := rfl

/-- A stretch shorter than 3 goes out byte by byte (R165, R167). -/
theorem encLit_cons (h : (v :: row).length < 3) : encLit (v :: row) = repeatBytes 1 v ++ encLit row := by
  have hrow : row.length < 3 := by rw [List.length_cons] at h; omega
  rw [encLit, if_pos h, encLit, if_pos hrow]
  rfl

/-- EncLit with its first chunk split off (R165, R166). -/
theorem encLit_peel (h : 3 ≤ bytes.length) :
    encLit bytes = absBytes (bytes.take (min bytes.length 255)) ++ encLit (bytes.drop (min bytes.length 255)) := by
  have hlong : ¬ bytes.length < 3 := by omega
  rcases Nat.lt_or_ge bytes.length 255 with hlt | hge
  · have hmin : min bytes.length 255 = bytes.length := by omega
    have hdiv : bytes.length / 255 = 0 := by omega
    rw [hmin, List.take_length, List.drop_length, encLit_nil, List.append_nil, encLit, if_neg hlong, hdiv, encChunks,
      if_pos h]
  · have hmin : min bytes.length 255 = 255 := by omega
    have hdiv : bytes.length / 255 = (bytes.length - 255) / 255 + 1 := by omega
    rw [hmin, encLit, if_neg hlong, hdiv, encChunks, encLit, List.length_drop]
    split
    · next hshort =>
      have hzero : (bytes.length - 255) / 255 = 0 := by omega
      have htail : ¬ 3 ≤ (bytes.drop 255).length := by rw [List.length_drop]; omega
      rw [hzero, encChunks, if_neg htail]
    · rfl

theorem encChunks_length {r : Nat} (h : bytes.length = 255 * k + r) :
    (encChunks k bytes).length = 258 * k + if r < 3 then 2 * r else 2 + r + r % 2 := by
  induction k generalizing bytes with
  | zero =>
    have hr : bytes.length = r := by omega
    by_cases h3 : 3 ≤ r
    · have : ¬ r < 3 := by omega
      simp [encChunks, hr, h3, this, absBytes_length]
    · have : r < 3 := by omega
      simp [encChunks, hr, h3, this, shortLit_length]
  | succ k ih =>
    have hchunk : (bytes.take 255).length = 255 := by rw [List.length_take]; omega
    rw [encChunks, List.length_append, absBytes_length, hchunk, ih (by rw [List.length_drop]; omega)]
    omega

theorem encLit_length : (encLit bytes).length = 258 * (bytes.length / 255) +
    if bytes.length % 255 < 3 then 2 * (bytes.length % 255)
    else 2 + bytes.length % 255 + bytes.length % 255 % 2 := by
  unfold encLit
  split
  · next h =>
    have hdiv : bytes.length / 255 = 0 := by omega
    have hmod : bytes.length % 255 = bytes.length := by omega
    rw [hdiv, hmod, if_pos h, shortLit_length, Nat.mul_zero, Nat.zero_add]
  · exact encChunks_length (by omega)

theorem encLit_length_even : (encLit bytes).length % 2 = 0 := by
  rw [encLit_length]; split <;> omega

theorem encLit_length_le : (encLit bytes).length ≤ 2 * bytes.length := by
  rw [encLit_length]; split <;> omega

/-- A stretch of 4 bytes or more saves a marker. -/
theorem encLit_length_of_four (h : 4 ≤ bytes.length) : (encLit bytes).length + 2 ≤ 2 * bytes.length := by
  rw [encLit_length]; split <;> omega

/-! ### EncRow -/

theorem encRow_of_run (h : 3 ≤ runLen (v :: row)) :
    encRow (v :: row) = encRun (runLen (v :: row)) v ++ encRow ((v :: row).drop (runLen (v :: row))) := by
  rw [encRow_cons, if_pos h]

theorem encRow_of_lit (hrow : row ≠ []) (h : runLen row < 3) :
    encRow row = encLit (row.take (litLen row)) ++ encRow (row.drop (litLen row)) := by
  obtain ⟨v, rest, rfl⟩ := List.exists_cons_of_ne_nil hrow
  rw [encRow_cons, if_neg (by omega)]

/-- Induction over a row by the activations of Pseudocode R118: a run of 3 or more, or a literal stretch. -/
theorem activation_induction {motive : List Byte → Prop} (nil : motive [])
    (run : ∀ v row, 3 ≤ runLen (v :: row) → motive ((v :: row).drop (runLen (v :: row))) → motive (v :: row))
    (lit : ∀ row, row ≠ [] → runLen row < 3 → motive (row.drop (litLen row)) → motive row)
    (row : List Byte) : motive row :=
  match row with
  | [] => nil
  | v :: rest => by
    have hrun := runLen_pos (row := v :: rest) (by simp)
    have hlit := litLen_pos (row := v :: rest) (by simp)
    by_cases h : 3 ≤ runLen (v :: rest)
    · exact run v rest h (activation_induction nil run lit _)
    · exact lit _ (by simp) (by omega) (activation_induction nil run lit _)
termination_by row.length
decreasing_by all_goals (rw [List.length_drop, List.length_cons]; omega)

theorem encRow_length_even (row : List Byte) : (encRow row).length % 2 = 0 := by
  induction row using activation_induction with
  | nil => rfl
  | run v row h ih =>
    rw [encRow_of_run h, List.length_append, encRun_length]
    omega
  | lit row hrow h ih =>
    have := encLit_length_even (bytes := row.take (litLen row))
    rw [encRow_of_lit hrow h, List.length_append]
    omega

theorem encRow_length_le (row : List Byte) : (encRow row).length ≤ 2 * row.length := by
  induction row using activation_induction with
  | nil => rfl
  | run v row h ih =>
    have hle := runLen_le (row := v :: row)
    rw [List.length_drop] at ih
    rw [encRow_of_run h, List.length_append, encRun_length]
    omega
  | lit row hrow h ih =>
    have hle := litLen_le (row := row)
    have hlit := encLit_length_le (bytes := row.take (litLen row))
    rw [List.length_take_of_le hle] at hlit
    rw [List.length_drop] at ih
    rw [encRow_of_lit hrow h, List.length_append]
    omega

/-- A row that starts with a run of 3 or more saves two markers. -/
theorem encRow_length_of_run (h : 3 ≤ runLen row) : (encRow row).length + 4 ≤ 2 * row.length := by
  cases row with
  | nil => simp [runLen] at h
  | cons v row =>
    have hle := runLen_le (row := v :: row)
    have hrest := encRow_length_le ((v :: row).drop (runLen (v :: row)))
    rw [List.length_drop] at hrest
    rw [encRow_of_run h, List.length_append, encRun_length]
    omega

/-- Behind a literal stretch stands a run of 3 or more, or the row ends (R160). -/
theorem litLen_stop (h : litLen row < row.length) : 3 ≤ runLen (row.drop (litLen row)) := by
  cases row with
  | nil => simp at h
  | cons v row =>
    simp only [litLen, List.length_cons, Nat.add_lt_add_iff_right, List.drop_succ_cons] at h ⊢
    exact bytesBeforeRun_stop h

/-- Inside a literal stretch no run of 3 or more starts (R160, R162). -/
theorem litLen_before {i : Nat} (hrun : runLen row < 3) (hi : i < litLen row) : runLen (row.drop i) < 3 := by
  cases row with
  | nil => simp [litLen] at hi
  | cons v row =>
    cases i with
    | zero => exact hrun
    | succ i =>
      simp only [litLen, Nat.add_lt_add_iff_right] at hi
      exact bytesBeforeRun_before (row := row) hi

theorem runLen_cons_self : runLen (v :: v :: row) = runLen (v :: row) + 1 := by
  simp [runLen, leadCount]

/-- A run is maximal: behind it stands another byte (R140). -/
theorem runLen_last_ne (h : runLen row < row.length) : row[runLen row - 1] ≠ row[runLen row] := by
  have hpos := runLen_pos (row := row) (by rintro rfl; simp at h)
  rw [runLen_getElem (by omega)]
  exact (runLen_stop h).symm

/-- A stretch is maximal: the run behind it does not start in the stretch (R162). -/
theorem litLen_last_ne (hrun : runLen row < 3) (h : litLen row < row.length) :
    row[litLen row - 1] ≠ row[litLen row] := by
  have hpos := litLen_pos (row := row) (by rintro rfl; simp at h)
  have hbefore := litLen_before (i := litLen row - 1) hrun (by omega)
  have hstop := litLen_stop h
  rw [List.drop_eq_getElem_cons (by omega), Nat.sub_add_cancel hpos] at hbefore
  rw [List.drop_eq_getElem_cons h] at hbefore hstop
  intro heq
  rw [heq, runLen_cons_self] at hbefore
  omega

/-- A row of 4 bytes or more costs, with its marker, at most twice its bytes (R247): a run saves two markers, and a row
without one is a single stretch. -/
theorem encRow_length_add_two_le (h : 4 ≤ row.length) : (encRow row).length + 2 ≤ 2 * row.length := by
  have hne : row ≠ [] := by rintro rfl; simp at h
  by_cases hrun : 3 ≤ runLen row
  · have := encRow_length_of_run hrun
    omega
  have hle := litLen_le (row := row)
  rw [encRow_of_lit hne (by omega), List.length_append]
  rcases Nat.lt_or_ge (litLen row) row.length with hlt | hge
  · have hlit := encLit_length_le (bytes := row.take (litLen row))
    have hrest := encRow_length_of_run (litLen_stop hlt)
    rw [List.length_take_of_le hle] at hlit
    rw [List.length_drop] at hrest
    omega
  · have hlit := encLit_length_of_four h
    rw [List.take_of_length_le hge, List.drop_of_length_le hge, encRow_nil, List.length_nil]
    omega

/-- The marked rows cost at most twice their bytes (R247). -/
theorem encRows_length_le {pix : Memory} {stride offset : Nat} (h : 4 ≤ stride) :
    (encRows pix stride offset k).length ≤ 2 * (k * stride) := by
  induction k generalizing offset with
  | zero => simp [encRows]
  | succ k ih =>
    have hrow := encRow_length_add_two_le (row := pix.readBytes offset stride) (by simpa using h)
    have hrest := ih (offset := offset + stride)
    rw [Memory.readBytes_length] at hrow
    rw [encRows, List.length_append, List.length_append, eolBytes_length, Nat.add_mul, Nat.one_mul]
    omega

end Sys2Proof.Machine
end

section
/-! The invariant of R37 on a launch in progress. The three packers are one step with different tokens (`State.pack`):
it consumes `c` source bytes, appends their token and leaves the end of the activation where it is, so what is written
and what is owed together stay the same. U_DETECT is the case of no byte and no token, U_EOL closes a row. -/

namespace Sys2Proof.Machine

variable {s t : State} {c m : Nat} {bytes : List Byte} {ph : Phase} {rl n : Word}

/-! ### One packing step -/

/-- The effect the three packers share: the token `bytes` goes out, `c` source bytes are consumed, RL and N take their
values and PHASE moves. -/
def State.pack (s : State) (bytes : List Byte) (c : Nat) (rl n : Word) (ph : Phase) : State :=
  ({ s.emit bytes with p := s.fit 1 (s.p.toNat + c), rl := rl, n := n }).toPhase ph

theorem State.repeatStep_eq_pack : s.repeatStep c =
    s.pack (repeatBytes (BitVec.ofNat 8 c) s.val) c (BitVec.ofNat 32 (s.rl.toNat - c)) s.n
      (if s.rl.toNat - c = 0 then .scan else .run) := rfl

theorem State.absStep_eq_pack : s.absStep c =
    s.pack (absBytes (s.source c)) c s.rl (BitVec.ofNat 32 (s.n.toNat - c))
      (if s.n.toNat - c = 0 then .scan else .lit) := rfl

theorem State.shortStep_eq_pack : s.shortStep =
    s.pack (repeatBytes 1 (s.pix.read (s.rowoff.toNat + s.p.toNat))) 1 s.rl s.nLess1
      (if s.nLess1 = 0 then .scan else .lit) := rfl

@[simp] theorem State.pack_phase : (s.pack bytes c rl n ph).phase = ph := rfl

theorem State.pack_rl (h : ph = .run) : (s.pack bytes c rl n ph).rl = rl := by simp [State.pack, h]

theorem State.pack_val (h : ph = .run) : (s.pack bytes c rl n ph).val = s.val := by simp [State.pack, h]

theorem State.pack_n (h : ph = .lit) : (s.pack bytes c rl n ph).n = n := by simp [State.pack, h]

theorem Phase.busy_of_inRow (h : ph.inRow = true) : ph.busy = true := by revert h; cases ph <;> decide

theorem Phase.ne_fin_of_inRow (h : ph.inRow = true) : ph ≠ .fin := by rintro rfl; exact absurd h (by decide)

/-- `t` stands in the same row of the same launch as `s`, and no activation has ended a row between them. -/
structure State.SameRow (s t : State) : Prop where
  config : s.SameConfig t
  pix : t.pix = s.pix
  stride : t.stride = s.stride
  rowoff : t.rowoff = s.rowoff
  before : s.phase.inRow = true
  after : t.phase.inRow = true

/-- From `s` to `t` the row's next `c` source bytes are consumed and `bytes` are appended to OUT. -/
structure State.Packs (s t : State) (c : Nat) (bytes : List Byte) : Prop extends State.SameRow s t where
  p : t.p.toNat = s.p.toNat + c
  outptr : t.outptr.toNat = s.outptr.toNat + bytes.length
  out : t.out = s.out.writeBytes s.outptr.toNat bytes

/-! ### What the invariant gives in every state -/

theorem State.LaunchRegisters.four_le_stride (h : s.LaunchRegisters) : 4 ≤ s.stride.toNat := by
  have := h.width_pos
  rw [h.stride_eq, strideOf]
  omega

/-- The current row lies inside the image. -/
theorem State.LaunchRegisters.row_end_le (h : s.LaunchRegisters) (hne : s.phase ≠ .fin) :
    s.rowoff.toNat + s.stride.toNat ≤ s.imageSize.toNat := by
  obtain ⟨k, hk⟩ := Nat.dvd_of_mod_eq_zero h.row_aligned
  obtain ⟨rows, hrows⟩ := Nat.dvd_of_mod_eq_zero h.whole_rows
  have hlt := h.row_inside hne
  rw [hk, hrows] at hlt
  have hk1 : k + 1 ≤ rows := Nat.lt_of_mul_lt_mul_left hlt
  calc s.rowoff.toNat + s.stride.toNat = s.stride.toNat * (k + 1) := by rw [hk, Nat.mul_succ]
    _ ≤ s.stride.toNat * rows := Nat.mul_le_mul_left _ hk1
    _ = s.imageSize.toNat := hrows.symm

theorem State.rowRest_length : s.rowRest.length = s.stride.toNat - s.p.toNat := by
  rw [State.rowRest, Memory.readBytes_length]

/-- What is left of the row after `c` bytes of it. -/
theorem State.SameRow.rowRest_eq_drop (h : s.SameRow t) (hp : t.p.toNat = s.p.toNat + c)
    (hc : s.p.toNat + c ≤ s.stride.toNat) : t.rowRest = s.rowRest.drop c := by
  rw [State.rowRest, State.rowRest, h.pix, h.stride, h.rowoff, hp, Memory.readBytes_drop (by omega), Nat.add_assoc,
    Nat.sub_sub]

/-- Consuming and appending inside a row ends with a move of PHASE, which keeps the registers of the row. -/
theorem State.packs_toPhase {u : State} (hin : s.phase.inRow = true) (hph : ph.inRow = true) (hconfig : s.SameConfig u)
    (hpix : u.pix = s.pix) (hstride : u.stride = s.stride) (hrowoff : u.rowoff = s.rowoff)
    (hp : u.p.toNat = s.p.toNat + c) (houtptr : u.outptr.toNat = s.outptr.toNat + bytes.length)
    (hout : u.out = s.out.writeBytes s.outptr.toNat bytes) : s.Packs (u.toPhase ph) c bytes := by
  obtain ⟨hstride', hrowoff', hp', houtptr'⟩ := State.toPhase_keeps (s := u) (.inr (Phase.busy_of_inRow hph))
  exact
    { config := hconfig, pix := hpix, stride := hstride'.trans hstride, rowoff := hrowoff'.trans hrowoff, before := hin
      after := hph, p := hp' ▸ hp, outptr := houtptr' ▸ houtptr, out := hout }

/-- A packing step whose token costs at most twice its source bytes packs them: both pointers fit their registers. -/
theorem State.pack_packs (hr : s.LaunchRegisters) (hs : s.LaunchStream) (hin : s.phase.inRow = true)
    (hph : ph.inRow = true) (hc : s.p.toNat + c ≤ s.stride.toNat) (hcost : bytes.length ≤ 2 * c) :
    s.Packs (s.pack bytes c rl n ph) c bytes := by
  have hrow := hr.row_end_le (Phase.ne_fin_of_inRow hin)
  have hcap := hr.cap_enough
  have hbound := hs.bound
  have := s.outCap.isLt
  have := s.stride.isLt
  exact State.packs_toPhase hin hph ⟨rfl, rfl, rfl⟩ rfl rfl rfl (State.fit_toNat (by omega))
    (State.emit_outptr_toNat (by omega)) rfl

/-! ### The registers of a row -/

/-- The clauses of R37 on the bytes of the current activation: there are some, and those of a run equal VAL. -/
def State.ActivationOk (s : State) : Prop :=
  (s.phase = .run → 1 ≤ s.rl.toNat ∧ ∀ i < s.rl.toNat, s.pix.read (s.rowoff.toNat + s.p.toNat + i) = s.val) ∧
    (s.phase = .lit → 1 ≤ s.n.toNat)

/-- Inside a row the clauses on registers hold again where the clauses on the new activation do. -/
theorem State.LaunchRegisters.of_sameRow (h : s.LaunchRegisters) (hrow : s.SameRow t)
    (hend : t.activationEnd ≤ s.stride.toNat) (hact : t.ActivationOk)
    (hleft : 0 < t.activationEnd → t.activationEnd < s.stride.toNat →
      s.pix.read (s.rowoff.toNat + (t.activationEnd - 1)) ≠ s.pix.read (s.rowoff.toNat + t.activationEnd)) :
    t.LaunchRegisters := by
  obtain ⟨⟨hwidth, hsize, hcap⟩, hpix, hstride, hrowoff, hin, hin'⟩ := hrow
  have hne := Phase.ne_fin_of_inRow hin'
  exact
    { width_pos := hwidth ▸ h.width_pos
      size_pos := hsize ▸ h.size_pos
      stride_eq := by rw [hstride, hwidth]; exact h.stride_eq
      whole_rows := by rw [hstride, hsize]; exact h.whole_rows
      cap_enough := by rw [hsize, hcap]; exact h.cap_enough
      row_aligned := by rw [hrowoff, hstride]; exact h.row_aligned
      row_inside := fun _ => by rw [hrowoff, hsize]; exact h.row_inside (Phase.ne_fin_of_inRow hin)
      rows_spent := fun hfin => absurd hfin hne
      end_inside := hstride ▸ hend
      run_pos := fun hp => (hact.1 hp).1
      lit_pos := hact.2
      run_bytes := fun hp => (hact.1 hp).2
      left_end := fun hpos hlt _ => by rw [hpix, hrowoff]; exact hleft hpos (hstride ▸ hlt) }

/-! ### The stream of a row -/

/-- Storing behind the first `a` bytes of a buffer appends to them. -/
theorem Memory.readBytes_writeBytes_append {mem : Memory} {a : Nat} (h : mem.wf = true) :
    (mem.writeBytes a bytes).readBytes 0 (a + bytes.length) = mem.readBytes 0 a ++ bytes := by
  rw [Memory.readBytes_add, Nat.zero_add, Memory.readBytes_writeBytes h]
  congr 1
  exact Memory.readBytes_congr fun i _ hi => Memory.read_writeBytes_outside h (.inl (by omega))

/-- Inside a row the clauses on OUT hold again where the appended bytes were owed. -/
theorem State.LaunchStream.of_packs (h : s.LaunchStream) (hwf : s.out.wf = true) (hp : s.Packs t c bytes)
    (howed : s.owed = bytes ++ t.owed) (heven : bytes.length % 2 = 0) (hcost : bytes.length ≤ 2 * c) :
    t.LaunchStream := by
  have hrow : t.row = s.row := by rw [State.row, State.row, hp.pix, hp.rowoff, hp.stride]
  have hwritten := h.written (Phase.ne_fin_of_inRow hp.before)
  have hbound := h.bound
  have heven' := h.even
  exact
    { written := fun _ => by
        rw [hp.out, hp.outptr, Memory.readBytes_writeBytes_append hwf, List.append_assoc, ← howed, hwritten, hrow, hp.pix,
          hp.rowoff, hp.stride]
      all_written := fun hfin => absurd hfin (Phase.ne_fin_of_inRow hp.after)
      even := by rw [hp.outptr]; omega
      bound := by rw [hp.outptr, hp.rowoff, hp.p]; omega }

/-! ### What is owed, by activation -/

theorem State.activationEnd_scan (h : s.phase = .scan) : s.activationEnd = s.p.toNat := by
  rw [State.activationEnd, h]

theorem State.activationEnd_run (h : s.phase = .run) : s.activationEnd = s.p.toNat + s.rl.toNat := by
  rw [State.activationEnd, h]

theorem State.activationEnd_lit (h : s.phase = .lit) : s.activationEnd = s.p.toNat + s.n.toNat := by
  rw [State.activationEnd, h]

theorem State.owed_scan (h : s.phase = .scan) : s.owed = encRow s.rowRest := by rw [State.owed, h]

theorem State.owed_run (h : s.phase = .run) :
    s.owed = encRun s.rl.toNat s.val ++ encRow (s.rowRest.drop s.rl.toNat) := by rw [State.owed, h]

theorem State.owed_lit (h : s.phase = .lit) :
    s.owed = encLit (s.rowRest.take s.n.toNat) ++ encRow (s.rowRest.drop s.n.toNat) := by rw [State.owed, h]

/-- A run with `m` bytes left, in SCAN where none is. -/
theorem State.run_left {v : Byte} (hph : t.phase = if m = 0 then .scan else .run)
    (hleft : t.phase = .run → t.rl.toNat = m ∧ t.val = v) :
    t.activationEnd = t.p.toNat + m ∧ t.owed = encRun m v ++ encRow (t.rowRest.drop m) := by
  split at hph
  · next hm => subst hm; exact ⟨State.activationEnd_scan hph, State.owed_scan hph⟩
  · obtain ⟨hrl, hval⟩ := hleft hph
    rw [State.activationEnd_run hph, State.owed_run hph, hrl, hval]
    exact ⟨rfl, rfl⟩

/-- A stretch with `m` bytes left, in SCAN where none is. -/
theorem State.lit_left (hph : t.phase = if m = 0 then .scan else .lit) (hleft : t.phase = .lit → t.n.toNat = m) :
    t.activationEnd = t.p.toNat + m ∧ t.owed = encLit (t.rowRest.take m) ++ encRow (t.rowRest.drop m) := by
  split at hph
  · next hm => subst hm; exact ⟨State.activationEnd_scan hph, State.owed_scan hph⟩
  · rw [State.activationEnd_lit hph, State.owed_lit hph, hleft hph]
    exact ⟨rfl, rfl⟩

/-! ### The packers -/

/-- What R37 says of a state with a launch in progress. -/
def State.LaunchHolds (s : State) : Prop := s.LaunchRegisters ∧ s.LaunchStream

/-- A packing step that leaves the end of the activation where it is keeps the invariant. -/
theorem State.LaunchHolds.of_packs (h : s.LaunchHolds) (hwf : s.out.wf = true) (hp : s.Packs t c bytes)
    (hend : t.activationEnd = s.activationEnd) (howed : s.owed = bytes ++ t.owed) (heven : bytes.length % 2 = 0)
    (hcost : bytes.length ≤ 2 * c) (hact : t.ActivationOk) : t.LaunchHolds := by
  obtain ⟨hr, hs⟩ := h
  refine ⟨hr.of_sameRow hp.toSameRow (hend ▸ hr.end_inside) hact ?_, hs.of_packs hwf hp howed heven hcost⟩
  rw [hend]
  exact fun hpos hlt => hr.left_end hpos hlt (Phase.ne_fin_of_inRow hp.before)

/-- Packing `c` bytes of a run keeps the invariant where `bytes` are what EncRun starts with. -/
theorem State.LaunchHolds.pack_run (h : s.LaunchHolds) (hwf : s.out.wf = true) (hp : s.phase = .run)
    (hc : c ≤ s.rl.toNat) (hrl : rl.toNat = s.rl.toNat - c) (hph : ph = if s.rl.toNat - c = 0 then .scan else .run)
    (hbytes : encRun s.rl.toNat s.val = bytes ++ encRun (s.rl.toNat - c) s.val)
    (heven : bytes.length % 2 = 0) (hcost : bytes.length ≤ 2 * c) : (s.pack bytes c rl n ph).LaunchHolds := by
  obtain ⟨hr, hs⟩ := id h
  have hinside := hr.end_inside
  rw [State.activationEnd_run hp] at hinside
  have hpack := State.pack_packs (ph := ph) (rl := rl) (n := n) hr hs (by rw [hp]; rfl) (by rw [hph]; split <;> rfl)
    (by omega) hcost
  have hleft : ph = .run → (s.pack bytes c rl n ph).rl.toNat = s.rl.toNat - c ∧ (s.pack bytes c rl n ph).val = s.val :=
    fun hrun => ⟨(congrArg BitVec.toNat (State.pack_rl hrun)).trans hrl, State.pack_val hrun⟩
  obtain ⟨hend, howed⟩ := State.run_left (t := s.pack bytes c rl n ph) hph hleft
  refine h.of_packs hwf hpack ?_ ?_ heven hcost ⟨fun hrun => ?_, fun hlit => ?_⟩
  · rw [hend, hpack.p, State.activationEnd_run hp, Nat.add_assoc, Nat.add_sub_of_le hc]
  · rw [howed, hpack.rowRest_eq_drop hpack.p (by omega), List.drop_drop, Nat.add_sub_of_le hc, State.owed_run hp, hbytes,
      List.append_assoc]
  · obtain ⟨hrl', hval⟩ := hleft hrun
    have hne : s.rl.toNat - c ≠ 0 := by
      rintro h0
      rw [if_pos h0] at hph
      exact absurd (hph.symm.trans hrun) (by decide)
    rw [hrl', hval, hpack.p, hpack.pix, hpack.rowoff]
    refine ⟨by omega, fun i hi => ?_⟩
    rw [← hr.run_bytes hp (c + i) (by omega)]
    congr 1
    omega
  · rw [State.pack_phase, hph] at hlit
    split at hlit <;> cases hlit

/-- Packing `c` bytes of a literal stretch keeps the invariant where `bytes` are what EncLit starts with. -/
theorem State.LaunchHolds.pack_lit (h : s.LaunchHolds) (hwf : s.out.wf = true) (hp : s.phase = .lit)
    (hc : c ≤ s.n.toNat) (hn : n.toNat = s.n.toNat - c) (hph : ph = if s.n.toNat - c = 0 then .scan else .lit)
    (hbytes : encLit (s.rowRest.take s.n.toNat) = bytes ++ encLit ((s.rowRest.take s.n.toNat).drop c))
    (heven : bytes.length % 2 = 0) (hcost : bytes.length ≤ 2 * c) : (s.pack bytes c rl n ph).LaunchHolds := by
  obtain ⟨hr, hs⟩ := id h
  have hinside := hr.end_inside
  rw [State.activationEnd_lit hp] at hinside
  have hpack := State.pack_packs (ph := ph) (rl := rl) (n := n) hr hs (by rw [hp]; rfl) (by rw [hph]; split <;> rfl)
    (by omega) hcost
  have hleft : ph = .lit → (s.pack bytes c rl n ph).n.toNat = s.n.toNat - c :=
    fun hlit => (congrArg BitVec.toNat (State.pack_n hlit)).trans hn
  obtain ⟨hend, howed⟩ := State.lit_left (t := s.pack bytes c rl n ph) hph hleft
  refine h.of_packs hwf hpack ?_ ?_ heven hcost ⟨fun hrun => ?_, fun hlit => ?_⟩
  · rw [hend, hpack.p, State.activationEnd_lit hp, Nat.add_assoc, Nat.add_sub_of_le hc]
  · rw [howed, hpack.rowRest_eq_drop hpack.p (by omega), List.drop_drop, Nat.add_sub_of_le hc, State.owed_lit hp, hbytes,
      List.drop_take, List.append_assoc]
  · rw [State.pack_phase, hph] at hrun
    split at hrun <;> cases hrun
  · have hne : s.n.toNat - c ≠ 0 := by
      rintro h0
      rw [if_pos h0] at hph
      exact absurd (hph.symm.trans hlit) (by decide)
    rw [hleft hlit]
    omega

/-- U_REPEAT keeps the invariant: it peels one pair off EncRun. -/
theorem State.LaunchHolds.repeatStep (h : s.LaunchHolds) (hwf : s.out.wf = true) (hp : s.phase = .run) :
    (s.repeatStep (min s.rl.toNat 255)).LaunchHolds := by
  have hpos := h.1.run_pos hp
  have hlt := s.rl.isLt
  rw [State.repeatStep_eq_pack]
  exact h.pack_run hwf hp (by omega) (word_ofNat_toNat (by omega)) rfl (encRun_peel hpos)
    (by rw [repeatBytes_length]) (by rw [repeatBytes_length]; omega)

/-- The next `c` source bytes are the first `c` of the row's rest. -/
theorem State.source_eq_take (h : s.p.toNat + c ≤ s.stride.toNat) : s.source c = s.rowRest.take c :=
  (Memory.readBytes_take (by omega)).symm

/-- U_ABS keeps the invariant: it peels one chunk off EncLit. -/
theorem State.LaunchHolds.absStep (h : s.LaunchHolds) (hwf : s.out.wf = true) (hp : s.phase = .lit)
    (h3 : 3 ≤ s.n.toNat) : (s.absStep (min s.n.toNat 255)).LaunchHolds := by
  have hinside := h.1.end_inside
  rw [State.activationEnd_lit hp] at hinside
  have hlt := s.n.isLt
  have hlen : (s.rowRest.take s.n.toNat).length = s.n.toNat :=
    List.length_take_of_le (by rw [State.rowRest_length]; omega)
  have hbytes := encLit_peel (bytes := s.rowRest.take s.n.toNat) (by omega)
  rw [hlen, List.take_take, Nat.min_eq_left (Nat.min_le_left s.n.toNat 255),
    ← State.source_eq_take (c := min s.n.toNat 255) (by omega)] at hbytes
  have hsource : (s.source (min s.n.toNat 255)).length = min s.n.toNat 255 := Memory.readBytes_length
  rw [State.absStep_eq_pack]
  exact h.pack_lit hwf hp (by omega) (word_ofNat_toNat (by omega)) rfl hbytes
    (by rw [absBytes_length]; omega) (by rw [absBytes_length, hsource]; omega)

/-- U_SHORT keeps the invariant: it peels one byte off a stretch shorter than 3. -/
theorem State.LaunchHolds.shortStep (h : s.LaunchHolds) (hwf : s.out.wf = true) (hp : s.phase = .lit)
    (h2 : s.n.toNat ≤ 2) : s.shortStep.LaunchHolds := by
  have hpos := h.1.lit_pos hp
  have hinside := h.1.end_inside
  rw [State.activationEnd_lit hp] at hinside
  have hless : s.nLess1.toNat = s.n.toNat - 1 := by
    rw [State.nLess1, if_neg (by omega), word_ofNat_toNat (by omega)]
  have hzero : s.nLess1 = 0 ↔ s.n.toNat - 1 = 0 := by rw [← hless, BitVec.toNat_eq]; rfl
  obtain ⟨len, hlen⟩ := Nat.exists_eq_add_of_le' (show 1 ≤ s.stride.toNat - s.p.toNat by omega)
  obtain ⟨m, hm⟩ := Nat.exists_eq_add_of_le' hpos
  have hbytes : encLit (s.rowRest.take s.n.toNat) = repeatBytes 1 (s.pix.read (s.rowoff.toNat + s.p.toNat)) ++
      encLit ((s.rowRest.take s.n.toNat).drop 1) := by
    rw [State.rowRest, hlen, Memory.readBytes, hm, List.take_succ_cons, List.drop_one, List.tail_cons]
    refine encLit_cons ?_
    rw [List.length_cons, List.length_take]
    omega
  rw [State.shortStep_eq_pack]
  exact h.pack_lit hwf hp hpos hless (by simp only [hzero]) hbytes (by rw [repeatBytes_length])
    (by rw [repeatBytes_length])

/-! ### U_DETECT -/

/-- An activation of `len` bytes chosen in SCAN keeps the invariant where it is maximal and EncRow's next one. -/
theorem State.LaunchHolds.of_detect {len : Nat} (h : s.LaunchHolds) (hwf : s.out.wf = true) (hp : s.phase = .scan)
    (hpacks : s.Packs t 0 []) (hend : t.activationEnd = s.p.toNat + len) (hpos : 1 ≤ len) (hle : len ≤ s.rowRest.length)
    (hmax : ∀ hlt : len < s.rowRest.length, s.rowRest[len - 1] ≠ s.rowRest[len]) (howed : encRow s.rowRest = t.owed)
    (hact : t.ActivationOk) : t.LaunchHolds := by
  obtain ⟨hr, hs⟩ := h
  have hinside := hr.end_inside
  rw [State.activationEnd_scan hp] at hinside
  rw [State.rowRest_length] at hle
  refine ⟨hr.of_sameRow hpacks.toSameRow (by omega) hact fun _ hlt => ?_,
    hs.of_packs hwf hpacks ((State.owed_scan hp).trans howed) rfl (Nat.zero_le _)⟩
  have hne := hmax (by rw [State.rowRest_length]; omega)
  simp only [State.rowRest, Memory.readBytes_getElem] at hne
  rw [hend, ← Nat.add_assoc, Nat.add_sub_assoc hpos, ← Nat.add_assoc]
  exact hne

/-- U_DETECT keeps the invariant: the activation it chooses is the next one of EncRow (R118). -/
theorem State.LaunchHolds.detectStep (h : s.LaunchHolds) (hwf : s.out.wf = true) (hp : s.phase = .scan)
    (hlt : s.p.toNat < s.stride.toNat) : s.detectStep.LaunchHolds := by
  have hin : s.phase.inRow = true := by rw [hp]; rfl
  have hne : s.rowRest ≠ [] := List.ne_nil_of_length_pos (by rw [State.rowRest_length]; omega)
  have hfits := s.stride.isLt
  have hlen := s.rowRest_length
  obtain ⟨len, hsucc⟩ := Nat.exists_eq_add_of_le' (show 1 ≤ s.stride.toNat - s.p.toNat by omega)
  have hcons : s.rowRest = s.pix.read (s.rowoff.toNat + s.p.toNat) ::
      s.pix.readBytes (s.rowoff.toNat + s.p.toNat + 1) len := by rw [State.rowRest, hsucc, Memory.readBytes]
  unfold State.detectStep
  split
  · next hrun =>
    have hle := runLen_le (row := s.rowRest)
    generalize ht : State.toPhase _ .run = t
    have hpacks : s.Packs t 0 [] := ht ▸ State.packs_toPhase hin rfl ⟨rfl, rfl, rfl⟩ rfl rfl rfl rfl rfl rfl
    have hphase : t.phase = .run := ht ▸ rfl
    have hrl : t.rl.toNat = runLen s.rowRest := by rw [← ht]; simp [hp]; omega
    have hval : t.val = s.pix.read (s.rowoff.toNat + s.p.toNat) := by rw [← ht]; simp [hp]
    have hrest : t.rowRest = s.rowRest := hpacks.rowRest_eq_drop (c := 0) hpacks.p (by omega)
    refine h.of_detect hwf hp hpacks ?_ (runLen_pos hne) hle runLen_last_ne ?_ ⟨fun _ => ?_, fun hlit => ?_⟩
    · rw [State.activationEnd_run hphase, hpacks.p, hrl, Nat.add_zero]
    · rw [State.owed_run hphase, hrest, hrl, hval, hcons]
      exact encRow_of_run (hcons ▸ hrun)
    · rw [hrl, hval, hpacks.p, hpacks.pix, hpacks.rowoff, Nat.add_zero]
      refine ⟨by omega, fun i hi => ?_⟩
      have hget := runLen_getElem hi
      simp only [State.rowRest, Memory.readBytes_getElem] at hget
      exact hget
    · rw [hphase] at hlit; cases hlit
  · next hrun =>
    have hle := litLen_le (row := s.rowRest)
    have hpos := litLen_pos hne
    generalize ht : State.toPhase _ .lit = t
    have hpacks : s.Packs t 0 [] := ht ▸ State.packs_toPhase hin rfl ⟨rfl, rfl, rfl⟩ rfl rfl rfl rfl rfl rfl
    have hphase : t.phase = .lit := ht ▸ rfl
    have hn : t.n.toNat = litLen s.rowRest := by rw [← ht]; simp [hp]; omega
    have hrest : t.rowRest = s.rowRest := hpacks.rowRest_eq_drop (c := 0) hpacks.p (by omega)
    refine h.of_detect hwf hp hpacks ?_ hpos hle (litLen_last_ne (by omega)) ?_ ⟨fun hrun => ?_, fun _ => ?_⟩
    · rw [State.activationEnd_lit hphase, hpacks.p, hn, Nat.add_zero]
    · rw [State.owed_lit hphase, hrest, hn]
      exact encRow_of_lit hne (by omega)
    · rw [hphase] at hrun; cases hrun
    · rw [hn]; exact hpos

/-! ### The start of a row -/

/-- A launch between two rows, or behind its last one: the rows before ROWOFF stand in OUT, each with its marker. -/
structure State.RowStart (s : State) : Prop where
  phase_eq : s.phase = if s.rowoff.toNat < s.imageSize.toNat then .scan else .fin
  p_zero : s.p = 0
  width_pos : 0 < s.width.toNat
  size_pos : 0 < s.imageSize.toNat
  stride_eq : s.stride.toNat = strideOf s.width.toNat
  whole_rows : s.imageSize.toNat % s.stride.toNat = 0
  cap_enough : 2 * s.imageSize.toNat ≤ s.outCap.toNat
  row_aligned : s.rowoff.toNat % s.stride.toNat = 0
  row_le : s.rowoff.toNat ≤ s.imageSize.toNat
  rows : s.out.readBytes 0 s.outptr.toNat = encRows s.pix s.stride.toNat 0 (s.rowoff.toNat / s.stride.toNat)
  even : s.outptr.toNat % 2 = 0
  bound : s.outptr.toNat ≤ 2 * s.rowoff.toNat

theorem State.RowStart.row_lt (h : s.RowStart) (hne : s.phase ≠ .fin) : s.rowoff.toNat < s.imageSize.toNat := by
  by_contra hge
  exact hne (h.phase_eq.trans (if_neg hge))

theorem State.RowStart.phase_scan (h : s.RowStart) (hne : s.phase ≠ .fin) : s.phase = .scan :=
  h.phase_eq.trans (if_pos (h.row_lt hne))

theorem State.RowStart.row_eq (h : s.RowStart) (hfin : s.phase = .fin) : s.rowoff.toNat = s.imageSize.toNat := by
  by_contra hne
  have hlt := lt_of_le_of_ne h.row_le hne
  exact absurd (hfin.symm.trans (h.phase_eq.trans (if_pos hlt))) (by decide)

theorem State.RowStart.activationEnd_eq (h : s.RowStart) : s.activationEnd = 0 := by
  have hend : s.activationEnd = s.p.toNat := by
    by_cases hfin : s.phase = .fin
    · rw [State.activationEnd, hfin]
    · exact State.activationEnd_scan (h.phase_scan hfin)
  rw [hend, h.p_zero]
  rfl

theorem State.RowStart.launchRegisters (h : s.RowStart) : s.LaunchRegisters := by
  have hph : s.phase ≠ .run ∧ s.phase ≠ .lit := by rw [h.phase_eq]; split <;> decide
  exact
    { width_pos := h.width_pos
      size_pos := h.size_pos
      stride_eq := h.stride_eq
      whole_rows := h.whole_rows
      cap_enough := h.cap_enough
      row_aligned := h.row_aligned
      row_inside := h.row_lt
      rows_spent := fun hfin => ⟨h.row_eq hfin, congrArg BitVec.toNat h.p_zero⟩
      end_inside := h.activationEnd_eq ▸ Nat.zero_le _
      run_pos := fun hrun => absurd hrun hph.1
      lit_pos := fun hlit => absurd hlit hph.2
      run_bytes := fun hrun => absurd hrun hph.1
      left_end := fun hpos => absurd hpos (h.activationEnd_eq ▸ Nat.lt_irrefl 0) }

theorem State.RowStart.launchStream (h : s.RowStart) : s.LaunchStream where
  written hne := by
    have hrest : s.rowRest = s.row := by rw [State.rowRest, h.p_zero]; rfl
    rw [h.rows, State.owed_scan (h.phase_scan hne), hrest]
  all_written hfin := by rw [h.rows, h.row_eq hfin]
  even := h.even
  bound := by rw [h.p_zero]; exact h.bound

/-! ### U_EOL -/

/-- What stands in OUT with the row's marker are the marked rows up to and with this one (R119). -/
theorem State.LaunchHolds.rows_with_marker (h : s.LaunchHolds) (hp : s.phase = .scan) (hend : s.p = s.stride) :
    s.out.readBytes 0 s.outptr.toNat ++ eolBytes =
      encRows s.pix s.stride.toNat 0 (s.rowoff.toNat / s.stride.toNat + 1) := by
  obtain ⟨hr, hs⟩ := h
  have hwritten := hs.written (by rw [hp]; decide)
  have howed : s.owed = [] := by
    rw [State.owed_scan hp, State.rowRest, hend, Nat.sub_self, Memory.readBytes, encRow_nil]
  have hoff := Nat.div_mul_cancel (Nat.dvd_of_mod_eq_zero hr.row_aligned)
  rw [howed, List.append_nil] at hwritten
  rw [encRows_succ, hoff, hwritten, State.row]

/-- A row with its marker fits behind the rows before it (R247). -/
theorem State.LaunchHolds.marker_fits (h : s.LaunchHolds) (hp : s.phase = .scan) (hend : s.p = s.stride) :
    s.outptr.toNat + 2 ≤ 2 * (s.rowoff.toNat + s.stride.toNat) := by
  have hlen := congrArg List.length (h.rows_with_marker hp hend)
  have hle := encRows_length_le (pix := s.pix) (offset := 0) (k := s.rowoff.toNat / s.stride.toNat + 1)
    h.1.four_le_stride
  rw [List.length_append, Memory.readBytes_length, eolBytes_length] at hlen
  rw [Nat.add_mul, Nat.one_mul, Nat.div_mul_cancel (Nat.dvd_of_mod_eq_zero h.1.row_aligned)] at hle
  omega

/-- The pointers U_EOL leaves, where the sums fit (R121). -/
theorem State.eolStep_pointers (hout : s.outptr.toNat + 2 < 2 ^ 32) (hrow : s.rowoff.toNat + s.stride.toNat < 2 ^ 32) :
    s.eolStep.stride = s.stride ∧ s.eolStep.rowoff.toNat = s.rowoff.toNat + s.stride.toNat ∧ s.eolStep.p = 0 ∧
      s.eolStep.outptr.toNat = s.outptr.toNat + 2 := by
  obtain ⟨hstride, hrowoff, hp, houtptr⟩ := State.toPhase_keeps
    (s := { s.emit eolBytes with rowoff := s.fit 3 (s.rowoff.toNat + s.stride.toNat), p := 0 })
    (ph := if s.rowoff.toNat + s.stride.toNat < s.imageSize.toNat then .scan else .fin) (.inr (by split <;> rfl))
  exact ⟨hstride, (congrArg BitVec.toNat hrowoff).trans (State.fit_toNat hrow), hp,
    (congrArg BitVec.toNat houtptr).trans (State.emit_outptr_toNat hout)⟩

/-- U_EOL ends the row, and the launch stands at the start of the next one. -/
theorem State.LaunchHolds.eolStep_rowStart (h : s.LaunchHolds) (hwf : s.out.wf = true) (hp : s.phase = .scan)
    (hend : s.p = s.stride) : s.eolStep.RowStart := by
  have hrows := h.rows_with_marker hp hend
  have hcost := h.marker_fits hp hend
  obtain ⟨hr, hs⟩ := h
  have hstride := hr.four_le_stride
  have hrow := hr.row_end_le (by rw [hp]; decide)
  have hcap := hr.cap_enough
  have heven := hs.even
  have := s.outCap.isLt
  have := s.imageSize.isLt
  obtain ⟨hstride', hrowoff, hp', houtptr⟩ := State.eolStep_pointers (s := s) (by omega) (by omega)
  have hphase : s.eolStep.phase = if s.rowoff.toNat + s.stride.toNat < s.imageSize.toNat then .scan else .fin := rfl
  exact
    { phase_eq := by rw [hphase, hrowoff]; rfl
      p_zero := hp'
      width_pos := hr.width_pos
      size_pos := hr.size_pos
      stride_eq := by rw [hstride']; exact hr.stride_eq
      whole_rows := by rw [hstride']; exact hr.whole_rows
      cap_enough := hr.cap_enough
      row_aligned := by rw [hrowoff, hstride', Nat.add_mod_right]; exact hr.row_aligned
      row_le := by rw [hrowoff]; exact hrow
      rows := by
        rw [houtptr, hrowoff, hstride', Nat.add_div_right _ (by omega)]
        exact (Memory.readBytes_writeBytes_append (bytes := eolBytes) hwf).trans hrows
      even := by rw [houtptr]; omega
      bound := by rw [houtptr, hrowoff]; exact hcost }

/-! ### H_START -/

/-- An accepted H_START stands at the start of the first row (R180). -/
theorem State.launch_rowStart (h : checkLaunch s.width.toNat s.imageSize.toNat s.outCap.toNat = none) :
    s.clearResult.launch.RowStart := by
  obtain ⟨hw, hsize, hmod, hcap⟩ := checkLaunch_eq_none.mp h
  obtain ⟨hstride, hrowoff, hp, houtptr⟩ := State.toPhase_keeps (ph := .scan)
    (s := { s.clearResult with stride := BitVec.ofNat 32 (strideOf s.width.toNat), rowoff := 0, p := 0, outptr := 0 })
    (.inr rfl)
  replace hstride : s.clearResult.launch.stride.toNat = strideOf s.width.toNat :=
    (congrArg BitVec.toNat hstride).trans (word_ofNat_toNat (strideOf_lt_of_checkLaunch h s.imageSize.isLt))
  replace hrowoff : s.clearResult.launch.rowoff.toNat = 0 := congrArg BitVec.toNat hrowoff
  replace houtptr : s.clearResult.launch.outptr.toNat = 0 := congrArg BitVec.toNat houtptr
  have hpos : 0 < s.imageSize.toNat := Nat.pos_of_ne_zero hsize
  exact
    { phase_eq := by rw [hrowoff]; exact (if_pos hpos).symm
      p_zero := hp
      width_pos := Nat.pos_of_ne_zero hw
      size_pos := hpos
      stride_eq := hstride
      whole_rows := by rw [hstride]; exact hmod
      cap_enough := hcap
      row_aligned := by rw [hrowoff, Nat.zero_mod]
      row_le := by rw [hrowoff]; exact Nat.zero_le _
      rows := by rw [houtptr, hrowoff, Nat.zero_div, Memory.readBytes, encRows]
      even := by rw [houtptr]
      bound := by rw [houtptr]; exact Nat.zero_le _ }

/-! ### Every step -/

/-- The clauses of R37 speak of nothing outside the block. -/
theorem State.LaunchOk.outside (h : s.LaunchOk) (turns : List Turn) (rdata : Word) (fresh : Nat) (reader : Reader) :
    State.LaunchOk { s with turns := turns, rdata := rdata, fresh := fresh, reader := reader } := fun hb => by
  obtain ⟨hr, hs⟩ := h hb
  exact ⟨{ hr with }, { hs with }⟩

/-- Every micro-operation keeps the invariant; U_FIN ends the launch. -/
theorem micro_launchOk {i : Instr} (hwf : s.out.wf = true) (hs : s.LaunchOk) (hi : i ∈ microOperations)
    (h : exec i s = .next t) : t.LaunchOk := by
  have hl : s.LaunchHolds := hs (micro_busy hi h)
  obtain ⟨-, hp, hlt, rfl⟩ | ⟨-, hp, hend, rfl⟩ | ⟨-, hp, rfl⟩ | ⟨-, hp, h3, rfl⟩ | ⟨-, hp, h2, rfl⟩ |
    ⟨-, -, -, rfl⟩ := micro_cases hi h
  · exact fun _ => hl.detectStep hwf hp hlt
  · have hrow := hl.eolStep_rowStart hwf hp hend
    exact fun _ => ⟨hrow.launchRegisters, hrow.launchStream⟩
  · exact fun _ => hl.repeatStep hwf hp
  · exact fun _ => hl.absStep hwf hp h3
  · exact fun _ => hl.shortStep hwf hp h2
  · exact fun hb => absurd hb (by decide : ¬ Phase.done.busy = true)

/-- An H_START that is not ignored launches in the invariant, or launches nothing. -/
theorem State.startStep_launchOk (hb : s.busy = false) : s.startStep.LaunchOk := by
  cases hc : checkLaunch s.width.toNat s.imageSize.toNat s.outCap.toNat with
  | none =>
    rw [State.startStep_of_none hc]
    have hrow := State.launch_rowStart hc
    exact fun _ => ⟨hrow.launchRegisters, hrow.launchStream⟩
  | some code =>
    rw [State.startStep_of_error hb hc]
    exact fun hb => absurd hb (by decide : ¬ Phase.error.busy = true)

/-- The invariant of R37 is kept together with the canonical form, which the stores into OUT need. -/
theorem launchOk_keptByEffects : KeptByEffects (fun s => s.BuffersWf ∧ s.LaunchOk) where
  outside turns rdata fresh reader hs := ⟨hs.1, hs.2.outside turns rdata fresh reader⟩
  micro hs hi h := ⟨buffersWf_keptByEffects.micro hs.1 hi h, micro_launchOk hs.1.2 hs.2 hi h⟩
  start hs hb := ⟨buffersWf_keptByEffects.start hs.1 hb, State.startStep_launchOk hb⟩
  setConfig reg data hs hb := ⟨buffersWf_keptByEffects.setConfig reg data hs.1 hb, by
    obtain ⟨_, _, _, h⟩ := State.setConfig_frame reg data
    rw [h]
    exact fun hb' => absurd (hb.symm.trans hb') (by decide)⟩
  reset hs := ⟨buffersWf_keptByEffects.reset hs.1, fun hb => absurd hb (by decide : ¬ Phase.idle.busy = true)⟩
  storePix a v hs hb := ⟨buffersWf_keptByEffects.storePix a v hs.1 hb, fun hb' => absurd (hb.symm.trans hb') (by decide)⟩
  storeOut a v hs hb := ⟨buffersWf_keptByEffects.storeOut a v hs.1 hb, fun hb' => absurd (hb.symm.trans hb') (by decide)⟩

/-- Settles O46: one lemma per micro-operation and one for an accepted H_START; no other effect touches a launch in
progress. -/
theorem launchInvariantIsKept : Obligations.LaunchInvariantIsKept :=
  fun _ _ hwf hs h => (launchOk_keptByEffects.step ⟨hwf, hs⟩ h).2

end Sys2Proof.Machine
end

section
/-! Working registers outside their live phases do not matter (R30). Two states that agree on everything else give every
operation the same outcome: in its own phase an operation reads live registers only, and what its next phase makes live it
has written or was live before. -/

namespace Sys2Proof.Machine

variable {s s' t t' : State} {ph : Phase} {i : Instr}

/-! ### The relation -/

/-- Both outcomes stop for the same reason, or both are next states that agree on all that is live. -/
inductive SameOutcome : Host.Outcome State Fault Refusal → Host.Outcome State Fault Refusal → Prop
  | next {t t' : State} (h : t.SameLive t') : SameOutcome (.next t) (.next t')
  | fault (r : Fault) : SameOutcome (.fault r) (.fault r)
  | refused (r : Refusal) : SameOutcome (.refused r) (.refused r)

theorem State.SameLive.refl : s.SameLive s :=
  ⟨⟨rfl, rfl, rfl⟩, ⟨rfl, rfl⟩, ⟨rfl, rfl, rfl⟩, rfl, rfl, rfl, rfl, rfl, fun _ => ⟨rfl, rfl, rfl⟩, fun _ => rfl,
    fun _ => ⟨rfl, rfl⟩, fun _ => rfl⟩

/-- Agreement on a state and one with other working registers is agreement on the live ones. -/
theorem State.sameLive_iff {stride rowoff p outptr rl n : Word} {val : Byte} :
    s.SameLive { s with stride := stride, rowoff := rowoff, p := p, outptr := outptr, rl := rl, val := val, n := n } ↔
      (s.phase.inRow = true → stride = s.stride ∧ rowoff = s.rowoff ∧ p = s.p) ∧
      (s.phase.busy = true → outptr = s.outptr) ∧ (s.phase = .run → rl = s.rl ∧ val = s.val) ∧
      (s.phase = .lit → n = s.n) := by
  simp [State.SameLive, State.SameConfig, State.SameResult, State.SameOutside]

/-- States that agree on all that is live differ in working registers only. -/
theorem State.SameLive.exists_working (h : s.SameLive s') : ∃ stride rowoff p outptr rl val n,
    s' = { s with stride := stride, rowoff := rowoff, p := p, outptr := outptr, rl := rl, val := val, n := n } := by
  obtain ⟨⟨hw, hi, hc⟩, ⟨he, herr⟩, ⟨ht, hrd, hr⟩, hp, hpix, hout, hset, hf, -⟩ := h
  cases s'
  dsimp only at hw hi hc he herr ht hrd hr hp hpix hout hset hf
  subst hw hi hc he herr ht hrd hr hp hpix hout hset hf
  exact ⟨_, _, _, _, _, _, _, rfl⟩

theorem State.SameLive.of_scan (h : s.SameLive s') (hp : s.phase = .scan) :
    ∃ rl val n, s' = { s with rl := rl, val := val, n := n } := by
  obtain ⟨_, _, _, _, rl, val, n, rfl⟩ := h.exists_working
  obtain ⟨hrow, hout, -⟩ := State.sameLive_iff.mp h
  obtain ⟨rfl, rfl, rfl⟩ := hrow (by rw [hp]; rfl)
  obtain rfl := hout (by rw [hp]; rfl)
  exact ⟨rl, val, n, rfl⟩

theorem State.SameLive.of_run (h : s.SameLive s') (hp : s.phase = .run) : ∃ n, s' = { s with n := n } := by
  obtain ⟨_, _, _, _, _, _, n, rfl⟩ := h.exists_working
  obtain ⟨hrow, hout, hrun, -⟩ := State.sameLive_iff.mp h
  obtain ⟨rfl, rfl, rfl⟩ := hrow (by rw [hp]; rfl)
  obtain rfl := hout (by rw [hp]; rfl)
  obtain ⟨rfl, rfl⟩ := hrun hp
  exact ⟨n, rfl⟩

theorem State.SameLive.of_lit (h : s.SameLive s') (hp : s.phase = .lit) :
    ∃ rl val, s' = { s with rl := rl, val := val } := by
  obtain ⟨_, _, _, _, rl, val, _, rfl⟩ := h.exists_working
  obtain ⟨hrow, hout, -, hlit⟩ := State.sameLive_iff.mp h
  obtain ⟨rfl, rfl, rfl⟩ := hrow (by rw [hp]; rfl)
  obtain rfl := hout (by rw [hp]; rfl)
  obtain rfl := hlit hp
  exact ⟨rl, val, rfl⟩

theorem State.SameLive.of_fin (h : s.SameLive s') (hp : s.phase = .fin) : ∃ stride rowoff p rl val n,
    s' = { s with stride := stride, rowoff := rowoff, p := p, rl := rl, val := val, n := n } := by
  obtain ⟨stride, rowoff, p, _, rl, val, n, rfl⟩ := h.exists_working
  obtain ⟨-, hout, -⟩ := State.sameLive_iff.mp h
  obtain rfl := hout (by rw [hp]; rfl)
  exact ⟨stride, rowoff, p, rl, val, n, rfl⟩

/-- Changing what lies outside the block in the same way keeps the agreement. -/
theorem State.SameLive.outside (h : s.SameLive s') (turns : List Turn) (rdata : Word) (fresh : Nat) (reader : Reader) :
    State.SameLive { s with turns := turns, rdata := rdata, fresh := fresh, reader := reader }
      { s' with turns := turns, rdata := rdata, fresh := fresh, reader := reader } := by
  obtain ⟨hconfig, hresult, -, hp, hpix, hout, hset, -, hlive⟩ := h
  exact ⟨hconfig, hresult, ⟨rfl, rfl, rfl⟩, hp, hpix, hout, hset, rfl, hlive⟩

/-! ### Outcomes built from agreeing parts -/

theorem State.SameLive.ite {c : Prop} [Decidable c] {u u' : State} (ht : c → t.SameLive t')
    (hu : ¬ c → u.SameLive u') : State.SameLive (if c then t else u) (if c then t' else u') := by
  split
  · next h => exact ht h
  · next h => exact hu h

theorem SameOutcome.ite {c : Prop} [Decidable c] {o o' q q' : Host.Outcome State Fault Refusal}
    (ho : c → SameOutcome o o') (hq : ¬ c → SameOutcome q q') :
    SameOutcome (if c then o else q) (if c then o' else q') := by
  split
  · next h => exact ho h
  · next h => exact hq h

theorem SameOutcome.whenSelected {b b' : Bool} (hb : b' = b) (h : b = true → t.SameLive t') :
    SameOutcome (State.whenSelected b t) (State.whenSelected b' t') := by
  subst hb
  exact .ite (fun hb => .next (h hb)) (fun _ => .refused _)

theorem State.SameLive.phase_eq (h : s.SameLive s') : s'.phase = s.phase := by
  obtain ⟨-, -, -, hp, -⟩ := h
  exact hp

/-- A row of Table R97 applies to both states or to neither, where its guard does in its phase. -/
theorem State.SameLive.selected_eq (h : s.SameLive s') {g g' : Bool} (hg : s.phase = ph → g' = g) :
    (s'.phase == ph && g') = (s.phase == ph && g) := by
  rw [h.phase_eq]
  by_cases hp : s.phase = ph
  · rw [hg hp]
  · rw [beq_eq_false_iff_ne.mpr hp, Bool.false_and, Bool.false_and]

/-! ### Moves of PHASE -/

/-- A move of PHASE keeps the agreement where the registers that are live in the new phase agree. -/
theorem State.sameLive_toPhase {stride rowoff p outptr rl n : Word} {val : Byte}
    (hrow : ph.inRow = true → stride = s.stride ∧ rowoff = s.rowoff ∧ p = s.p)
    (hout : ph.busy = true → outptr = s.outptr) (hrun : ph = .run → rl = s.rl ∧ val = s.val)
    (hlit : ph = .lit → n = s.n) :
    (s.toPhase ph).SameLive (State.toPhase { s with
      stride := stride, rowoff := rowoff, p := p, outptr := outptr, rl := rl, val := val, n := n } ph) := by
  refine ⟨⟨rfl, rfl, rfl⟩, ⟨rfl, rfl⟩, ⟨rfl, rfl, rfl⟩, rfl, rfl, rfl, rfl, rfl, fun h => ?_, fun h => ?_, fun h => ?_,
    fun h => ?_⟩
  · obtain ⟨rfl, rfl, rfl⟩ := hrow h
    exact ⟨rfl, rfl, rfl⟩
  · obtain rfl := hout h
    rfl
  · obtain ⟨rfl, rfl⟩ := hrun h
    exact ⟨rfl, rfl⟩
  · obtain rfl := hlit h
    rfl

/-! ### The micro-operations -/

theorem State.SameLive.detectStep (h : s.SameLive s') (hp : s.phase = .scan) : s.detectStep.SameLive s'.detectStep := by
  obtain ⟨rl, val, n, rfl⟩ := h.of_scan hp
  refine State.SameLive.ite (c := 3 ≤ runLen s.rowRest) (fun _ => ?_) (fun _ => ?_)
  · exact State.sameLive_toPhase (fun _ => ⟨rfl, rfl, rfl⟩) (fun _ => rfl) (fun _ => ⟨rfl, rfl⟩) nofun
  · exact State.sameLive_toPhase (fun _ => ⟨rfl, rfl, rfl⟩) (fun _ => rfl) nofun (fun _ => rfl)

theorem State.SameLive.eolStep (h : s.SameLive s') (hp : s.phase = .scan) : s.eolStep.SameLive s'.eolStep := by
  obtain ⟨rl, val, n, rfl⟩ := h.of_scan hp
  exact State.sameLive_toPhase (fun _ => ⟨rfl, rfl, rfl⟩) (fun _ => rfl)
    (fun hrun => by split at hrun <;> cases hrun) (fun hlit => by split at hlit <;> cases hlit)

theorem State.SameLive.repeatStep (h : s.SameLive s') (hp : s.phase = .run) :
    (s.repeatStep (min s.rl.toNat 255)).SameLive (s'.repeatStep (min s'.rl.toNat 255)) := by
  obtain ⟨n, rfl⟩ := h.of_run hp
  exact State.sameLive_toPhase (fun _ => ⟨rfl, rfl, rfl⟩) (fun _ => rfl) (fun _ => ⟨rfl, rfl⟩)
    (fun hlit => by split at hlit <;> cases hlit)

theorem State.SameLive.absStep (h : s.SameLive s') (hp : s.phase = .lit) :
    (s.absStep (min s.n.toNat 255)).SameLive (s'.absStep (min s'.n.toNat 255)) := by
  obtain ⟨rl, val, rfl⟩ := h.of_lit hp
  exact State.sameLive_toPhase (fun _ => ⟨rfl, rfl, rfl⟩) (fun _ => rfl)
    (fun hrun => by split at hrun <;> cases hrun) (fun _ => rfl)

theorem State.SameLive.shortStep (h : s.SameLive s') (hp : s.phase = .lit) : s.shortStep.SameLive s'.shortStep := by
  obtain ⟨rl, val, rfl⟩ := h.of_lit hp
  exact State.sameLive_toPhase (fun _ => ⟨rfl, rfl, rfl⟩) (fun _ => rfl)
    (fun hrun => by split at hrun <;> cases hrun) (fun _ => rfl)

theorem State.SameLive.finStep (h : s.SameLive s') (hp : s.phase = .fin) : s.finStep.SameLive s'.finStep := by
  obtain ⟨stride, rowoff, p, rl, val, n, rfl⟩ := h.of_fin hp
  exact State.sameLive_toPhase nofun nofun nofun nofun

/-- A micro-operation reads live registers only, its guard included (Table R97). -/
theorem State.SameLive.micro (h : s.SameLive s') (hi : i ∈ microOperations) : SameOutcome (exec i s) (exec i s') := by
  simp only [microOperations, List.mem_cons, List.not_mem_nil, or_false] at hi
  obtain rfl | rfl | rfl | rfl | rfl | rfl := hi
  · refine .whenSelected (h.selected_eq fun hp => ?_) fun hsel => h.detectStep ?_
    · obtain ⟨rl, val, n, rfl⟩ := h.of_scan hp
      rfl
    · exact eq_of_beq (Bool.and_eq_true_iff.mp hsel).1
  · refine .whenSelected (h.selected_eq fun hp => ?_) fun hsel => h.eolStep ?_
    · obtain ⟨rl, val, n, rfl⟩ := h.of_scan hp
      rfl
    · exact eq_of_beq (Bool.and_eq_true_iff.mp hsel).1
  · exact .whenSelected (congrArg (· == _) h.phase_eq) fun hsel => h.repeatStep (eq_of_beq hsel)
  · refine .whenSelected (h.selected_eq fun hp => ?_) fun hsel => h.absStep ?_
    · obtain ⟨rl, val, rfl⟩ := h.of_lit hp
      rfl
    · exact eq_of_beq (Bool.and_eq_true_iff.mp hsel).1
  · refine .whenSelected (h.selected_eq fun hp => ?_) fun hsel => h.shortStep ?_
    · obtain ⟨rl, val, rfl⟩ := h.of_lit hp
      rfl
    · exact eq_of_beq (Bool.and_eq_true_iff.mp hsel).1
  · have hfault := h.selected_eq (ph := .fin) (g := decide (s.outptr.toNat < 2)) (g' := decide (s'.outptr.toNat < 2))
      fun hp => by
        obtain ⟨stride, rowoff, p, rl, val, n, rfl⟩ := h.of_fin hp
        rfl
    simp only [exec, execUFin, hfault]
    exact .ite (fun _ => .fault _) fun _ =>
      .whenSelected (congrArg (· == _) h.phase_eq) fun hsel => h.finStep (eq_of_beq hsel)

/-! ### The host commands and the tokens -/

/-- An H_START that is not ignored reads no working register, and writes those its launch makes live. -/
theorem State.SameLive.startStep (h : s.SameLive s') (hb : s.busy = false) : s.startStep.SameLive s'.startStep := by
  have hworking := h.exists_working
  have hb' : s'.busy = false := (congrArg Phase.busy h.phase_eq).trans hb
  obtain ⟨⟨hw, hi, hcap⟩, -⟩ := h
  cases hc : checkLaunch s.width.toNat s.imageSize.toNat s.outCap.toNat with
  | none =>
    rw [State.startStep_of_none hc, State.startStep_of_none (by rw [hw, hi, hcap, hc])]
    obtain ⟨stride, rowoff, p, outptr, rl, val, n, rfl⟩ := hworking
    exact State.sameLive_toPhase (fun _ => ⟨rfl, rfl, rfl⟩) (fun _ => rfl) nofun nofun
  | some code =>
    rw [State.startStep_of_error hb hc, State.startStep_of_error hb' (by rw [hw, hi, hcap, hc])]
    obtain ⟨stride, rowoff, p, outptr, rl, val, n, rfl⟩ := hworking
    exact State.sameLive_iff.mpr ⟨nofun, nofun, nofun, nofun⟩

theorem State.SameLive.setConfig (h : s.SameLive s') (reg : CfgReg) (data : Word) :
    (s.setConfig reg data).SameLive (s'.setConfig reg data) := by
  obtain ⟨stride, rowoff, p, outptr, rl, val, n, rfl⟩ := h.exists_working
  have hlive := State.sameLive_iff.mp h
  cases reg <;> exact State.sameLive_iff.mpr hlive

/-- A token acts on the reader, which both states share. -/
theorem State.SameLive.whenReading (h : s.SameLive s') (r : Reader) :
    SameOutcome (s.whenReading r) (s'.whenReading r) := by
  obtain ⟨stride, rowoff, p, outptr, rl, val, n, rfl⟩ := h.exists_working
  exact .ite (c := s.reader.ended = true) (fun _ => .refused _) fun _ => .next (h.outside s.turns s.rdata s.fresh r)

/-- Every operation gives both states the same outcome. -/
theorem State.SameLive.exec (h : s.SameLive s') (i : Instr) : SameOutcome (exec i s) (exec i s') := by
  obtain ⟨stride, rowoff, p, outptr, rl, val, n, rfl⟩ := h.exists_working
  cases i with
  | uDetect | uEol | uRepeat | uAbs | uShort | uFin => exact h.micro (by decide)
  | hStart ignored => exact .next (.ite (c := s.busy = true) (fun _ => h) fun hb => h.startStep (by simpa using hb))
  | hWriteCfg reg data => exact .next (.ite (c := s.busy = true) (fun _ => h) fun _ => h.setConfig reg data)
  | hRead reg => exact .next (h.outside s.turns (s.register reg) s.fresh s.reader)
  | hReset => exact .next State.SameLive.refl
  | tEob => exact .ite (c := s.reader.rest = []) (fun _ => h.whenReading _) fun _ => .refused _
  | tDelta => exact .refused _
  | tEol | tAbs | tRepeat => exact h.whenReading _

/-! ### A step -/

/-- The guard that holds looks at registers of the current phase only (Table R97). -/
theorem State.SameLive.guard_eq (h : s.SameLive s') : s'.guard = s.guard := by
  have hphase := h.phase_eq
  cases hp : s.phase with
  | scan => obtain ⟨rl, val, n, rfl⟩ := h.of_scan hp; simp only [State.guard, hp]
  | lit => obtain ⟨rl, val, rfl⟩ := h.of_lit hp; simp only [State.guard, hp]
  | _ => simp [State.guard, hphase, hp]

theorem State.SameLive.coreMove (h : s.SameLive s') : SameOutcome (coreMove s) (coreMove s') := by
  unfold Machine.coreMove
  rw [h.phase_eq, h.guard_eq]
  split
  · exact h.exec _
  · exact .next h
  · exact .fault _

theorem State.SameLive.readerMove (h : s.SameLive s') : SameOutcome (readerMove s) (readerMove s') := by
  have hreader : s'.reader = s.reader := by
    obtain ⟨-, -, ⟨-, -, hreader⟩, -⟩ := h
    exact hreader
  unfold Machine.readerMove
  rw [hreader]
  refine .ite (fun _ => .next h) fun _ => ?_
  split
  · next i rest _ =>
    obtain ⟨stride, rowoff, p, outptr, rl, val, n, rfl⟩ := h.exists_working
    exact (h.outside s.turns s.rdata s.fresh { s.reader with rest := rest }).exec i
  · exact .refused _

/-- A host's store writes both buffers alike. -/
theorem State.SameLive.store (h : s.SameLive s') (pix out : Memory) (settled : Option (List (Nat × Nat))) :
    State.SameLive { s with pix := pix, out := out, settled := settled }
      { s' with pix := pix, out := out, settled := settled } := by
  obtain ⟨hconfig, hresult, houtside, hp, -, -, -, hf, hlive⟩ := h
  exact ⟨hconfig, hresult, houtside, hp, rfl, rfl, rfl, hf, hlive⟩

theorem State.SameLive.runMove (h : s.SameLive s') (move : Move) : SameOutcome (runMove move s) (runMove move s') := by
  cases move with
  | core => exact h.coreMove
  | command word =>
    unfold Machine.runMove commandMove
    dsimp only
    split
    · exact h.exec _
    · exact .next h
  | reader => exact h.readerMove
  | storePix index value =>
    obtain ⟨stride, rowoff, p, outptr, rl, val, n, rfl⟩ := h.exists_working
    exact .ite (c := s.busy = true) (fun _ => .refused _) fun _ => .next (h.store _ s.out s.settled)
  | storeOut index value =>
    obtain ⟨stride, rowoff, p, outptr, rl, val, n, rfl⟩ := h.exists_working
    exact .ite (c := s.busy = true) (fun _ => .refused _) fun _ => .next (h.store s.pix _ _)
  | loadPix index =>
    obtain ⟨stride, rowoff, p, outptr, rl, val, n, rfl⟩ := h.exists_working
    exact .next (h.outside s.turns _ s.fresh s.reader)
  | loadOut index =>
    obtain ⟨stride, rowoff, p, outptr, rl, val, n, rfl⟩ := h.exists_working
    exact .next (h.outside s.turns _ _ s.reader)

/-- Every step gives both states the same outcome, whichever agent moves. -/
theorem State.SameLive.step (h : s.SameLive s') : SameOutcome (step s) (step s') := by
  have hturns : s'.turns = s.turns := by
    obtain ⟨-, -, ⟨hturns, -⟩, -⟩ := h
    exact hturns
  have hspend : ∀ turns, State.SameLive { s with turns := turns } { s' with turns := turns } := by
    obtain ⟨stride, rowoff, p, outptr, rl, val, n, rfl⟩ := h.exists_working
    exact fun turns => h.outside turns s.rdata s.fresh s.reader
  unfold Machine.step runTurn
  rw [hturns]
  split
  · exact h.coreMove
  · split
    · exact (hspend _).exec _
    · exact (hspend _).runMove _

/-- Settles O47: `SameLive.step` covers the next states and the stops at once. -/
theorem deadRegistersDoNotMatter : Obligations.DeadRegistersDoNotMatter := by
  intro s s' h
  have hstep := h.step
  generalize step s = o at hstep ⊢
  generalize step s' = o' at hstep ⊢
  cases hstep with
  | next h => exact ⟨by rintro t ⟨⟩; exact ⟨_, rfl, h⟩, nofun, nofun⟩
  | fault r => exact ⟨nofun, fun _ h => h, nofun⟩
  | refused r => exact ⟨nofun, nofun, fun _ h => h⟩

end Sys2Proof.Machine
end

section
/-! Who may change the buffers' contents and what the host can rely on: while BUSY = 1 the inputs of the launch stand
still (R53, R182, R236), and while BUSY stays 0 no byte of OUT is lost to the host (R61, R230). -/

namespace Sys2Proof.Machine

variable {s t : State} {i : Instr}

/-! ### The inputs of a launch -/

/-- No operation stores into PIX (R53). -/
theorem exec_pix (h : exec i s = .next t) : t.pix = s.pix := by
  cases i with
  | uDetect | uEol | uRepeat | uAbs | uShort | uFin =>
    obtain ⟨-, -, hpix, -⟩ := micro_frame (by decide) h
    exact hpix
  | hStart ignored =>
    cases h
    split
    · rfl
    · exact State.startStep_buffers.1
  | hWriteCfg reg data =>
    cases h
    split
    · rfl
    · obtain ⟨_, _, _, hset⟩ := s.setConfig_frame reg data
      rw [hset]
  | hRead reg => cases h; rfl
  | hReset => cases h; rfl
  | tEol | tEob | tDelta | tAbs | tRepeat => rw [exec_token_frame rfl h]

/-- While BUSY = 1 no operation but H_RESET writes a configuration register: H_START and H_WRITE_CFG are ignored (R181,
R182). -/
theorem exec_sameConfig_of_busy (h : exec i s = .next t) (hb : s.busy = true) (hne : i ≠ .hReset) :
    s.SameConfig t := by
  cases i with
  | uDetect | uEol | uRepeat | uAbs | uShort | uFin =>
    obtain ⟨hconfig, -⟩ := micro_frame (by decide) h
    exact hconfig
  | hStart ignored => cases h; rw [if_pos hb]; exact ⟨rfl, rfl, rfl⟩
  | hWriteCfg reg data => cases h; rw [if_pos hb]; exact ⟨rfl, rfl, rfl⟩
  | hRead reg => cases h; exact ⟨rfl, rfl, rfl⟩
  | hReset => exact absurd rfl hne
  | tEol | tEob | tDelta | tAbs | tRepeat => rw [exec_token_frame rfl h]; exact ⟨rfl, rfl, rfl⟩

/-- Settles O49: no operation writes PIX, only H_RESET, which needs the reset input, writes a configuration register while
BUSY = 1, and the host's stores have BUSY = 0. -/
theorem launchInputsAreFixed : Obligations.LaunchInputsAreFixed := by
  intro s t hb h
  cases step_cases h with
  | idle turns ht | load turns v k ht => rw [ht]; exact ⟨rfl, fun _ => ⟨rfl, rfl, rfl⟩⟩
  | micro turns i hi h =>
    obtain ⟨hconfig, -, hpix, -⟩ := micro_frame hi h
    exact ⟨hpix, fun _ => hconfig⟩
  | command turns i word hi h =>
    have hpix := exec_pix h
    have hconfig := exec_sameConfig_of_busy h hb (isToken_of_decodeCommand hi).2
    exact ⟨hpix, fun _ => hconfig⟩
  | reset turns hr h =>
    obtain ⟨turn, hturn, hreset⟩ := hr
    have hpix := exec_pix h
    refine ⟨hpix, fun hno => ?_⟩
    exact absurd (hreset.symm.trans (hno turn hturn)) (by decide)
  | token turns i rest hi h =>
    rw [exec_token_frame (isToken_of_decodeToken hi) h]
    exact ⟨rfl, fun _ => ⟨rfl, rfl, rfl⟩⟩
  | storePix turns a v hidle | storeOut turns a v hidle => exact absurd (hb.symm.trans hidle) (by decide)

/-! ### What the host can rely on -/

/-- The bytes of OUT the host can rely on follow from BUSY and the settled spans alone. -/
theorem State.outKnown_of_settled_eq {a : Nat} (hb : t.busy = false) (hsettled : t.settled = s.settled)
    (h : s.outKnown a = true) : t.outKnown a = true := by
  unfold State.outKnown at h ⊢
  rw [hb, hsettled]
  exact (Bool.and_eq_true_iff.mp h).2

/-- The host can rely on a byte of OUT only while BUSY = 0 (R61). -/
theorem State.busy_eq_false_of_outKnown {a : Nat} (h : s.outKnown a = true) : s.busy = false :=
  Bool.eq_false_iff.mpr fun hb => absurd ((State.outKnown_of_busy hb).symm.trans h) (by decide)

theorem State.startStep_settled : s.startStep.settled = s.settled := by
  unfold State.startStep; split <;> rfl

/-- A reset with BUSY = 0 cuts no launch short (R230). -/
theorem State.resetStep_settled (hb : s.busy = false) : s.resetStep.settled = s.settled := by
  simp [State.resetStep, hb]

/-- From BUSY = 0 no operation changes the settled spans: U_FIN does not run, and a reset cuts no launch short. -/
theorem exec_settled_of_idle (h : exec i s = .next t) (hb : s.busy = false) : t.settled = s.settled := by
  cases i with
  | uDetect | uEol | uRepeat | uAbs | uShort | uFin =>
    exact absurd (hb.symm.trans (micro_busy (by decide) h)) (by decide)
  | hStart ignored =>
    cases h
    split
    · rfl
    · exact State.startStep_settled
  | hWriteCfg reg data =>
    cases h
    split
    · rfl
    · obtain ⟨_, _, _, hset⟩ := s.setConfig_frame reg data
      rw [hset]
  | hRead reg => cases h; rfl
  | hReset => cases h; exact State.resetStep_settled hb
  | tEol | tEob | tDelta | tAbs | tRepeat => rw [exec_token_frame rfl h]

/-- Settles O54: from BUSY = 0 the host's store to OUT adds a span to the settled ones, and every other step leaves them as
they are. -/
theorem knownBytesStayKnown : Obligations.KnownBytesStayKnown := by
  intro s t a h hknown hb'
  have hb : s.busy = false := State.busy_eq_false_of_outKnown hknown
  cases step_cases h with
  | idle turns ht | load turns v k ht | storePix turns i v hidle ht => rw [ht]; exact hknown
  | micro turns i hi h | command turns i word hi h | reset turns hr h | token turns i rest hi h =>
    exact State.outKnown_of_settled_eq hb' (exec_settled_of_idle h hb) hknown
  | storeOut turns i v hidle ht => rw [ht]; exact (State.outKnown_settle hb).mpr (.inr hknown)

end Sys2Proof.Machine
end

section
/-! The encodings of 30_encoding.md: a token is read back in front of any stream and takes the bytes its header says
(R80, R88), and a command word is its three fields (R96). -/

namespace Sys2Proof.Machine

variable {a b count value : Byte} {s payload rest bytes : List Byte} {i : Instr}

/-! ### One token -/

theorem decodeToken_of_ne_zero (h : a ≠ 0) : decodeToken (a :: b :: rest) = .ok (.tRepeat a b, rest) := if_pos h

/-- T_REPEAT is read back from its bytes (R82). -/
theorem decodeToken_repeatBytes (h : count ≠ 0) :
    decodeToken (repeatBytes count value ++ rest) = .ok (.tRepeat count value, rest) := decodeToken_of_ne_zero h

theorem decodeToken_eolBytes : decodeToken (eolBytes ++ rest) = .ok (.tEol, rest) := rfl

theorem decodeToken_eobBytes : decodeToken (eobBytes ++ rest) = .ok (.tEob, rest) := rfl

theorem decodeToken_deltaBytes : decodeToken ([0, 2] ++ rest) = .ok (.tDelta, rest) := rfl

/-- Behind a header `00 n` with `n ≥ 3` stand `n` payload bytes and the pad (R85). -/
theorem decodeToken_of_three_le (h : 3 ≤ b.toNat) :
    decodeToken (0 :: b :: rest) =
      if rest.length < paddedLength b.toNat then .error .truncated
      else .ok (.tAbs (rest.take b.toNat), rest.drop (paddedLength b.toNat)) := by
  have hne : ∀ c : Byte, c.toNat < 3 → b ≠ c := by rintro c hc rfl; omega
  rw [decodeToken, if_neg (by decide), if_neg (hne 0 (by decide)), if_neg (hne 1 (by decide)),
    if_neg (hne 2 (by decide))]

/-- T_ABS is read back from its bytes, whatever follows its pad (R85). -/
theorem decodeToken_absBytes (h : 3 ≤ payload.length) (h' : payload.length ≤ 255) :
    decodeToken (absBytes payload ++ rest) = .ok (.tAbs payload, rest) := by
  have hn : (BitVec.ofNat 8 payload.length).toNat = payload.length := byte_ofNat_toNat (by omega)
  have hbody : (payload ++ padBytes payload.length).length = paddedLength payload.length := by
    rw [List.length_append, padBytes_length, paddedLength]
  have hshape : absBytes payload ++ rest =
      0 :: BitVec.ofNat 8 payload.length :: (payload ++ padBytes payload.length ++ rest) := by simp [absBytes]
  rw [hshape, decodeToken_of_three_le (by omega), hn, if_neg (by rw [List.length_append]; omega), ← hbody,
    List.drop_left, List.append_assoc, List.take_left]

/-- Settles O2: one lemma per token, each for any bytes behind it. -/
theorem tokenIsReadInFrontOfAnyStream : Obligations.TokenIsReadInFrontOfAnyStream := by
  intro i bytes rest hwf hi
  cases i with
  | tEol => cases hi; exact decodeToken_eolBytes
  | tEob => cases hi; exact decodeToken_eobBytes
  | tDelta => cases hi; exact decodeToken_deltaBytes
  | tAbs payload =>
    cases hi
    obtain ⟨h3, h255⟩ : 3 ≤ payload.length ∧ payload.length ≤ 255 := by simpa [Instr.wf] using hwf
    exact decodeToken_absBytes h3 h255
  | tRepeat count value =>
    cases hi
    exact decodeToken_repeatBytes (by simpa [Instr.wf] using hwf)
  | _ => cases hi

/-- What a token takes off a stream, by its header: two bytes, or the header, the payload and the pad (R88). -/
theorem decodeToken_rest (h : decodeToken (a :: b :: s) = .ok (i, rest)) :
    (¬ (a = 0 ∧ 3 ≤ b.toNat) ∧ rest = s) ∨
      (a = 0 ∧ 3 ≤ b.toNat ∧ paddedLength b.toNat ≤ s.length ∧ rest = s.drop (paddedLength b.toNat)) := by
  by_cases ha : a = 0
  · subst ha
    by_cases hb : 3 ≤ b.toNat
    · rw [decodeToken_of_three_le hb] at h
      split at h
      · cases h
      · next hlen => cases h; exact .inr ⟨rfl, hb, by omega, rfl⟩
    · have hmark : b = 0 ∨ b = 1 ∨ b = 2 := by bv_omega
      refine .inl ⟨fun hno => hb hno.2, ?_⟩
      obtain rfl | rfl | rfl := hmark <;> cases h <;> rfl
  · rw [decodeToken_of_ne_zero ha] at h
    cases h
    exact .inl ⟨fun hno => ha hno.1, rfl⟩

/-- A token takes at least its header off the stream. -/
theorem decodeToken_length (h : decodeToken s = .ok (i, rest)) : rest.length + 2 ≤ s.length := by
  match s, h with
  | a :: b :: s, h =>
    obtain ⟨-, rfl⟩ | ⟨-, -, -, rfl⟩ := decodeToken_rest h
    · simp
    · simp only [List.length_drop, List.length_cons]; omega

/-- Settles O5: the two cases of `decodeToken_rest`. -/
theorem tokenLengthFollowsFromTheHeader : Obligations.TokenLengthFollowsFromTheHeader := by
  intro a b s i rest h
  have hb := b.isLt
  obtain ⟨hshort, rfl⟩ | ⟨ha, hn, hlen, rfl⟩ := decodeToken_rest h
  · refine ⟨2, ?_, rfl, (if_neg hshort).symm, by decide, by decide, by decide⟩
    simp only [List.length_cons]; omega
  · unfold paddedLength at hlen ⊢
    refine ⟨2 + b.toNat + b.toNat % 2, ?_, ?_, (if_pos ⟨ha, hn⟩).symm, by omega, by omega, by omega⟩
    · simp only [List.length_cons, List.length_drop]; omega
    · rw [Nat.add_assoc, Nat.add_comm 2]; rfl

/-! ### Command words -/

variable {w : BitVec 36} {write : BitVec 1} {reg : BitVec 3} {data : Word}

theorem commandWord_write : (commandWord write reg data).extractLsb' 35 1 = write :=
  (BitVec.extractLsb'_append_eq_of_le (xhi := write ++ reg) (xlo := data) (by decide)).trans
    BitVec.extractLsb'_append_eq_left

theorem commandWord_reg : (commandWord write reg data).extractLsb' 32 3 = reg :=
  (BitVec.extractLsb'_append_eq_of_le (xhi := write ++ reg) (xlo := data) (by decide)).trans
    BitVec.extractLsb'_append_eq_right

theorem commandWord_data : (commandWord write reg data).extractLsb' 0 32 = data := BitVec.extractLsb'_append_eq_right

/-- A command word is made of its three fields and nothing else (R96). -/
theorem commandWord_fields : commandWord (w.extractLsb' 35 1) (w.extractLsb' 32 3) (w.extractLsb' 0 32) = w := by
  rw [commandWord, BitVec.extractLsb'_append_extractLsb'_eq_extractLsb' (by rfl),
    BitVec.extractLsb'_append_extractLsb'_eq_extractLsb' (by rfl)]
  exact BitVec.extractLsb'_eq_self

/-- Table R96, in the fields of the command word: a read. -/
theorem decodeCommand_read : decodeCommand (commandWord 0 reg data) = .ok (.hRead reg) := by
  simp only [decodeCommand, commandWord_write, commandWord_reg, if_true]

/-- Table R96, in the fields of the command word: the writes. -/
theorem decodeCommand_write : decodeCommand (commandWord 1 reg data) =
    if reg = 0 ∧ data.extractLsb' 0 1 = 1 then .ok (.hStart (data.extractLsb' 1 31))
    else if reg = 2 then .ok (.hWriteCfg .width data)
    else if reg = 3 then .ok (.hWriteCfg .imageSize data)
    else if reg = 4 then .ok (.hWriteCfg .outCap data)
    else .error .noCommand := by
  simp only [decodeCommand, commandWord_write, commandWord_reg, commandWord_data]
  rfl

theorem decodeCommand_hStart {ignored : BitVec 31} :
    decodeCommand (commandWord 1 0 (ignored ++ (1 : BitVec 1))) = .ok (.hStart ignored) := by
  rw [decodeCommand_write, if_pos ⟨rfl, BitVec.extractLsb'_append_eq_right⟩]
  exact congrArg (fun g => Except.ok (Instr.hStart g)) BitVec.extractLsb'_append_eq_left

theorem decodeCommand_hWriteCfg {reg : CfgReg} :
    decodeCommand (commandWord 1 reg.number data) = .ok (.hWriteCfg reg data) := by
  rw [decodeCommand_write]; cases reg <;> rfl

/-- "Every other write (register 0 with bit 0 = 0; registers 1, 5, 6, 7) selects no command" (R96). -/
theorem decodeCommand_noCommand
    (h : (reg = 0 ∧ data.extractLsb' 0 1 = 0) ∨ reg = 1 ∨ reg = 5 ∨ reg = 6 ∨ reg = 7) :
    decodeCommand (commandWord 1 reg data) = .error .noCommand := by
  rw [decodeCommand_write]
  obtain ⟨rfl, h0⟩ | rfl | rfl | rfl | rfl := h
  · rw [h0]; rfl
  all_goals rfl

/-- The data of a write of CTRL that starts a launch are its ignored bits and the 1 (R96). -/
theorem startData_eq (h : data.extractLsb' 0 1 = 1) : data.extractLsb' 1 31 ++ (1 : BitVec 1) = data := by
  rw [← h, BitVec.extractLsb'_append_extractLsb'_eq_extractLsb' (by rfl)]
  exact BitVec.extractLsb'_eq_self

/-- Settles O3: the word is made of its fields, and the operation keeps the register number and all the data. -/
theorem encodeOfDecodedWriteIsTheWord : Obligations.EncodeOfDecodedWriteIsTheWord := by
  intro w i hw h
  have hfields := commandWord_fields (w := w)
  rw [hw] at hfields
  rw [← hfields, decodeCommand_write] at h
  rw [← hfields]
  generalize w.extractLsb' 32 3 = reg at h ⊢
  generalize w.extractLsb' 0 32 = data at h ⊢
  split_ifs at h with hstart h2 h3 h4
  · obtain ⟨rfl, hbit⟩ := hstart
    cases h
    rw [encode, startData_eq hbit]
  · subst h2; cases h; rfl
  · subst h3; cases h; rfl
  · subst h4; cases h; rfl

/-- A token's bytes alone decode to the token, with nothing left. -/
theorem decode_stream (hwf : i.wf = true) (hi : encode i = .stream bytes) : decode (.stream bytes) = .ok (i, []) := by
  simpa [decode] using tokenIsReadInFrontOfAnyStream i bytes [] hwf hi

theorem decode_command (h : decodeCommand w = .ok i) : decode (.command w) = .ok (i, []) := by
  rw [decode, h]; rfl

/-- Settles O1: a token by O2 with nothing behind it, a host command by the fields of its word; the PHASE codes and the
reset line are single values. -/
theorem decodeOfEncodeIsTheOperation : Obligations.DecodeOfEncodeIsTheOperation := by
  intro i hwf
  cases i with
  | tEol | tEob | tDelta | tAbs | tRepeat => exact decode_stream hwf rfl
  | uDetect | uEol | uRepeat | uAbs | uShort | uFin => rfl
  | hStart ignored => exact decode_command decodeCommand_hStart
  | hWriteCfg reg data => exact decode_command decodeCommand_hWriteCfg
  | hRead reg => exact decode_command decodeCommand_read
  | hReset => rfl

/-- Settles O4: each word is evaluated. -/
theorem specWordsDecode : Obligations.SpecWordsDecode := by
  unfold Obligations.SpecWordsDecode; decide

end Sys2Proof.Machine
end

section
/-! The reader of the token stream: what each token does to it (R82 to R86), and that its turns, one token each, compute
the loop of Pseudocode R92. -/

namespace Sys2Proof.Machine

variable {s : State} {i : Instr} {count value : Byte} {stream rest out payload : List Byte}
  {markers k fuel : Nat} {r : Reader}

/-! ### The tokens -/

theorem State.whenReading_of_reading (h : s.reader.ended = false) : s.whenReading r = .next { s with reader := r } :=
  if_neg (by simp [h])

theorem State.whenReading_of_ended (h : s.reader.ended = true) : s.whenReading r = .refused .afterEndOfBitmap :=
  if_pos h

/-- Settles O23: the reader takes the token before the end of the stream. -/
theorem tRepeatStandsForItsRun : Obligations.TRepeatStandsForItsRun :=
  fun _ _ _ h => State.whenReading_of_reading h

/-- Settles O24: the reader takes the token before the end of the stream. -/
theorem tAbsStandsForItsPayload : Obligations.TAbsStandsForItsPayload :=
  fun _ _ h => State.whenReading_of_reading h

theorem execTEob_of_last (hend : s.reader.ended = false) (h : s.reader.rest = []) : exec .tEob s =
    .next { s with reader := { s.reader with markers := s.reader.markers + 1, ended := true } } :=
  (if_pos h).trans (State.whenReading_of_reading hend)

theorem execTEob_of_more (h : s.reader.rest ≠ []) : exec .tEob s = .refused .afterEndOfBitmap := if_neg h

/-- Settles O25: T_EOL by the reader, T_EOB by its test for bytes behind it. -/
theorem markersStandForNoByte : Obligations.MarkersStandForNoByte :=
  fun _ h => ⟨State.whenReading_of_reading h, execTEob_of_last h⟩

/-- Settles O26: the arm of T_DELTA is the refusal. -/
theorem tDeltaIsRefused : Obligations.TDeltaIsRefused := fun _ => rfl

/-- Settles O27: once the stream has ended the reader takes no token; T_EOB looks for bytes behind it first. -/
theorem nothingFollowsTheEndOfBitmap : Obligations.NothingFollowsTheEndOfBitmap := by
  intro s i hi hdelta h
  have hended : i ≠ .tEob → s.reader.ended = true := fun hne => h.resolve_right fun hmore => hne hmore.1
  cases i with
  | tEol | tAbs | tRepeat => exact State.whenReading_of_ended (hended (by simp))
  | tEob =>
    by_cases hrest : s.reader.rest = []
    · have hend : s.reader.ended = true := h.resolve_right fun hmore => hmore.2 hrest
      exact (if_pos hrest).trans (State.whenReading_of_ended hend)
    · exact execTEob_of_more hrest
  | tDelta => exact absurd rfl hdelta
  | _ => cases hi

/-! ### The loop of Pseudocode R92, one token at a time -/

theorem decodeLoop_of_tRepeat (h : decodeToken stream = .ok (.tRepeat count value, rest)) :
    decodeLoop (fuel + 1) stream out markers =
      decodeLoop fuel rest (out ++ List.replicate count.toNat value) markers := by
  rw [decodeLoop, h]

theorem decodeLoop_of_tAbs (h : decodeToken stream = .ok (.tAbs payload, rest)) :
    decodeLoop (fuel + 1) stream out markers = decodeLoop fuel rest (out ++ payload) markers := by
  rw [decodeLoop, h]

theorem decodeLoop_of_tEol (h : decodeToken stream = .ok (.tEol, rest)) :
    decodeLoop (fuel + 1) stream out markers = decodeLoop fuel rest out (markers + 1) := by
  rw [decodeLoop, h]

theorem decodeLoop_of_tEob (h : decodeToken stream = .ok (.tEob, rest)) :
    decodeLoop (fuel + 1) stream out markers = if rest = [] then some (out, markers + 1) else none := by
  rw [decodeLoop, h]

theorem decodeLoop_of_tDelta (h : decodeToken stream = .ok (.tDelta, rest)) :
    decodeLoop (fuel + 1) stream out markers = none := by
  rw [decodeLoop, h]

theorem decodeLoop_of_error {e : DecodeError} (h : decodeToken stream = .error e) :
    decodeLoop (fuel + 1) stream out markers = none := by
  rw [decodeLoop, h]

/-! ### The reader's turns -/

/-- The reader's turn runs the next token with the reader past it. -/
theorem readerMove_of_token (hend : s.reader.ended = false) (h : decodeToken s.reader.rest = .ok (i, rest)) :
    readerMove s = exec i { s with reader := { s.reader with rest := rest } } := by
  rw [readerMove, if_neg (by simp [hend]), decode, h]

theorem readerMove_of_error {e : DecodeError} (hend : s.reader.ended = false)
    (h : decodeToken s.reader.rest = .error e) : readerMove s = .refused .truncatedStream := by
  rw [readerMove, if_neg (by simp [hend]), decode, h]

/-- `k` turns for the reader. -/
def readerTurns (k : Nat) : List Turn := List.replicate k { reset := false, move := .reader }

/-- A state in which the reader has `k` turns to come and nothing else has. -/
def State.withReader (s : State) (k : Nat) (r : Reader) : State := { s with turns := readerTurns k, reader := r }

theorem run_succ_of_next {M : Host.Core} {s t : M.State} (h : M.step s = .next t) : M.run (k + 1) s = M.run k t := by
  rw [Host.Core.run, h]

theorem run_succ_of_refused {M : Host.Core} {s : M.State} {q : M.Refusal} (h : M.step s = .refused q) :
    M.run (k + 1) s = .refused q := by
  rw [Host.Core.run, h]

theorem run_withReader_of_next {t : State} (h : readerMove (s.withReader k r) = .next t) :
    Host.Core.run Sys2Proof.core (k + 1) (s.withReader (k + 1) r) = Host.Core.run Sys2Proof.core k t :=
  run_succ_of_next h

theorem run_withReader_of_refused {q : Refusal} (h : readerMove (s.withReader k r) = .refused q) :
    Host.Core.run Sys2Proof.core (k + 1) (s.withReader (k + 1) r) = .refused q :=
  run_succ_of_refused h

/-- Once the stream has ended the reader spends its turns and does nothing. -/
theorem run_of_ended (h : r.ended = true) :
    Host.Core.run Sys2Proof.core k (s.withReader k r) = .next (s.withReader 0 r) := by
  induction k with
  | zero => rfl
  | succ k ih => rw [run_withReader_of_next (if_pos h)]; exact ih

/-- The reader's `k` turns from `r` end as `Decode` does: with its bytes and markers, or refused. -/
def State.ReadsAs (s : State) (k : Nat) (r : Reader) : Option (List Byte × Nat) → Prop
  | some (out, markers) => (s.withReader k r).Reaches k
      (s.withReader 0 { rest := [], out := out, markers := markers, ended := true })
  | none => ∃ q, Host.Core.run Sys2Proof.core k (s.withReader k r) = .refused q

/-- A turn that goes on reading leaves the outcome to the others. -/
theorem State.ReadsAs.of_next {r r' : Reader} {result : Option (List Byte × Nat)}
    (h : readerMove (s.withReader k r) = .next (s.withReader k r')) (hr : s.ReadsAs k r' result) :
    s.ReadsAs (k + 1) r result := by
  cases result with
  | none =>
    obtain ⟨q, hq⟩ := hr
    exact ⟨q, (run_withReader_of_next h).trans hq⟩
  | some result => exact (run_withReader_of_next h).trans hr

/-- With a turn for each token, the reader's turns are the loop of Pseudocode R92. -/
theorem State.readsAs_decodeLoop (h : stream.length < k) :
    s.ReadsAs k { rest := stream, out := out, markers := markers, ended := false }
      (decodeLoop k stream out markers) := by
  induction k generalizing stream out markers with
  | zero => omega
  | succ k ih =>
    cases hd : decodeToken stream with
    | error e =>
      rw [decodeLoop_of_error hd]
      exact ⟨_, run_withReader_of_refused (readerMove_of_error rfl hd)⟩
    | ok token =>
      obtain ⟨i, rest⟩ := token
      have hlt : rest.length < k := by have := decodeToken_length hd; omega
      have hmove : readerMove (s.withReader k { rest := stream, out := out, markers := markers, ended := false }) =
          exec i (s.withReader k { rest := rest, out := out, markers := markers, ended := false }) :=
        readerMove_of_token rfl hd
      have hi := isToken_of_decodeToken hd
      cases i with
      | tRepeat count value =>
        rw [decodeLoop_of_tRepeat hd]
        exact .of_next hmove (ih hlt)
      | tAbs payload =>
        rw [decodeLoop_of_tAbs hd]
        exact .of_next hmove (ih hlt)
      | tEol =>
        rw [decodeLoop_of_tEol hd]
        exact .of_next hmove (ih hlt)
      | tEob =>
        rw [decodeLoop_of_tEob hd]
        split
        · next hrest =>
          subst hrest
          exact (run_withReader_of_next hmove).trans (run_of_ended rfl)
        · next hrest => exact ⟨_, run_withReader_of_refused (hmove.trans (execTEob_of_more hrest))⟩
      | tDelta =>
        rw [decodeLoop_of_tDelta hd]
        exact ⟨_, run_withReader_of_refused hmove⟩
      | _ => cases hi

/-- Settles O29: `Decode` is the loop with a turn more than the stream has bytes. -/
theorem readerComputesDecode : Obligations.ReaderComputesDecode := by
  intro s bytes hreader hturns
  have hs : s = s.withReader (bytes.length + 1) { rest := bytes, out := [], markers := 0, ended := false } := by
    rw [State.withReader, ← hreader, readerTurns, ← hturns]
  have h : s.ReadsAs (bytes.length + 1) { rest := bytes, out := [], markers := 0, ended := false }
      (decodeStream bytes) := State.readsAs_decodeLoop (by omega)
  unfold State.ReadsAs at h
  rw [← hs] at h
  exact h

end Sys2Proof.Machine
end

section
/-! The round trip (R124, R187): every byte sequence the encoder writes stands for its source bytes and its markers, in
front of any stream, so what `EncRun`, `EncLit`, `EncRow` and the rows write is read back piece by piece. -/

namespace Sys2Proof.Machine

variable {v count : Byte} {stream rest out payload bytes bytes' src src' row : List Byte}
  {markers markers' k k' fuel fuel' len : Nat}

/-! ### Decode without fuel -/

/-- Any fuel of more than the stream's length gives the same. -/
theorem decodeLoop_eq (hf : stream.length < fuel) (hf' : stream.length < fuel') :
    decodeLoop fuel stream out markers = decodeLoop fuel' stream out markers := by
  induction fuel generalizing fuel' stream out markers with
  | zero => omega
  | succ fuel ih =>
    obtain ⟨fuel', rfl⟩ := Nat.exists_eq_succ_of_ne_zero (n := fuel') (by omega)
    cases hd : decodeToken stream with
    | error e => rw [decodeLoop_of_error hd, decodeLoop_of_error hd]
    | ok token =>
      obtain ⟨i, rest⟩ := token
      have hlen := decodeToken_length hd
      have hi := isToken_of_decodeToken hd
      cases i with
      | tRepeat count value =>
        rw [decodeLoop_of_tRepeat hd, decodeLoop_of_tRepeat hd]
        exact ih (by omega) (by omega)
      | tAbs payload =>
        rw [decodeLoop_of_tAbs hd, decodeLoop_of_tAbs hd]
        exact ih (by omega) (by omega)
      | tEol =>
        rw [decodeLoop_of_tEol hd, decodeLoop_of_tEol hd]
        exact ih (by omega) (by omega)
      | tEob => rw [decodeLoop_of_tEob hd, decodeLoop_of_tEob hd]
      | tDelta => rw [decodeLoop_of_tDelta hd, decodeLoop_of_tDelta hd]
      | _ => cases hi

/-- The loop of Pseudocode R92 with as much fuel as the stream can use. -/
def decodeFrom (stream out : List Byte) (markers : Nat) : Option (List Byte × Nat) :=
  decodeLoop (stream.length + 1) stream out markers

theorem decodeStream_eq : decodeStream stream = decodeFrom stream [] 0 := rfl

/-- One token read, the loop goes on behind it. -/
theorem decodeFrom_of_token {i : Instr} {out' : List Byte} (h : decodeToken stream = .ok (i, rest))
    (hloop : decodeLoop (stream.length + 1) stream out markers = decodeLoop stream.length rest out' markers') :
    decodeFrom stream out markers = decodeFrom rest out' markers' := by
  have hlen := decodeToken_length h
  exact hloop.trans (decodeLoop_eq (by omega) (by omega))

/-! ### What a byte sequence stands for -/

/-- In front of any stream the bytes are read as `src`, with `k` markers among them. -/
def StandsFor (bytes src : List Byte) (k : Nat) : Prop :=
  ∀ rest out markers, decodeFrom (bytes ++ rest) out markers = decodeFrom rest (out ++ src) (markers + k)

theorem StandsFor.nil : StandsFor [] [] 0 := by
  intro rest out markers
  rw [List.nil_append, List.append_nil, Nat.add_zero]

theorem StandsFor.append (h : StandsFor bytes src k) (h' : StandsFor bytes' src' k') :
    StandsFor (bytes ++ bytes') (src ++ src') (k + k') := by
  intro rest out markers
  rw [List.append_assoc, h, h', List.append_assoc, Nat.add_assoc]

/-- T_REPEAT stands for its run (R82). -/
theorem standsFor_repeatBytes (h : count ≠ 0) : StandsFor (repeatBytes count v) (List.replicate count.toNat v) 0 :=
  fun _ _ _ =>
    have hd := decodeToken_repeatBytes h
    decodeFrom_of_token hd (decodeLoop_of_tRepeat hd)

/-- T_ABS stands for its payload (R85). -/
theorem standsFor_absBytes (h : 3 ≤ payload.length) (h' : payload.length ≤ 255) :
    StandsFor (absBytes payload) payload 0 :=
  fun _ _ _ =>
    have hd := decodeToken_absBytes h h'
    decodeFrom_of_token hd (decodeLoop_of_tAbs hd)

/-- T_EOL is one marker and no byte (R83). -/
theorem standsFor_eolBytes : StandsFor eolBytes [] 1 := by
  intro rest out markers
  rw [List.append_nil]
  exact decodeFrom_of_token decodeToken_eolBytes (decodeLoop_of_tEol decodeToken_eolBytes)

/-- T_EOB with nothing behind it ends the stream with its marker (R84). -/
theorem decodeFrom_eobBytes : decodeFrom eobBytes out markers = some (out, markers + 1) :=
  (decodeLoop_of_tEob (rest := []) rfl).trans (if_pos rfl)

/-! ### What the packers write -/

/-- EncRun stands for its run (R150, R152). -/
theorem standsFor_encRun : StandsFor (encRun len v) (List.replicate len v) 0 := by
  induction len using Nat.strong_induction_on with
  | _ len ih =>
    rcases Nat.eq_zero_or_pos len with rfl | hpos
    · exact StandsFor.nil
    have hc : (BitVec.ofNat 8 (min len 255)).toNat = min len 255 := byte_ofNat_toNat (by omega)
    have hne : BitVec.ofNat 8 (min len 255) ≠ 0 := fun h => by
      rw [h] at hc
      have : (0 : Byte).toNat = 0 := rfl
      omega
    have hsplit : List.replicate len v = List.replicate (min len 255) v ++ List.replicate (len - min len 255) v := by
      rw [List.replicate_append_replicate, Nat.add_sub_cancel' (by omega)]
    have htoken := standsFor_repeatBytes (v := v) hne
    rw [hc] at htoken
    rw [encRun_peel hpos, hsplit]
    exact htoken.append (ih _ (by omega))

/-- A stretch shorter than 3 stands for itself, byte by byte (R167). -/
theorem standsFor_encLit_short (h : bytes.length < 3) : StandsFor (encLit bytes) bytes 0 := by
  induction bytes with
  | nil => exact StandsFor.nil
  | cons b bytes ih =>
    rw [encLit_cons h]
    exact (standsFor_repeatBytes (count := 1) (by decide)).append (ih (by rw [List.length_cons] at h; omega))

/-- EncLit stands for its stretch (R165). -/
theorem standsFor_encLit (bytes : List Byte) : StandsFor (encLit bytes) bytes 0 := by
  rcases Nat.lt_or_ge bytes.length 3 with hshort | hlong
  · exact standsFor_encLit_short hshort
  · have hchunk : (bytes.take (min bytes.length 255)).length = min bytes.length 255 :=
      List.length_take_of_le (by omega)
    have h := (standsFor_absBytes (payload := bytes.take (min bytes.length 255)) (by omega) (by omega)).append
      (standsFor_encLit (bytes.drop (min bytes.length 255)))
    rw [List.take_append_drop] at h
    rw [encLit_peel hlong]
    exact h
termination_by bytes.length
decreasing_by rw [List.length_drop]; omega

theorem replicate_runLen : List.replicate (runLen (v :: row)) v = (v :: row).take (runLen (v :: row)) := by
  refine List.ext_getElem ?_ fun i h h' => ?_
  · rw [List.length_replicate, List.length_take_of_le runLen_le]
  · rw [List.getElem_replicate, List.getElem_take, runLen_getElem (by simpa using h), List.getElem_cons_zero]

/-- EncRow stands for its row, activation by activation (R118). -/
theorem standsFor_encRow (row : List Byte) : StandsFor (encRow row) row 0 := by
  induction row using activation_induction with
  | nil => exact StandsFor.nil
  | run v row h ih =>
    have hall := (standsFor_encRun (len := runLen (v :: row)) (v := v)).append ih
    rw [replicate_runLen, List.take_append_drop] at hall
    rw [encRow_of_run h]
    exact hall
  | lit row hrow h ih =>
    have hall := (standsFor_encLit (row.take (litLen row))).append ih
    rw [List.take_append_drop] at hall
    rw [encRow_of_lit hrow h]
    exact hall

/-- Marked rows stand for their bytes, with one marker a row (R124). -/
theorem standsFor_encRows {pix : Memory} {stride offset : Nat} :
    StandsFor (encRows pix stride offset k) (pix.readBytes offset (k * stride)) k := by
  induction k generalizing offset with
  | zero => rw [Nat.zero_mul]; exact StandsFor.nil
  | succ k ih =>
    have h := ((standsFor_encRow (pix.readBytes offset stride)).append standsFor_eolBytes).append
      (ih (offset := offset + stride))
    rw [List.append_nil, ← Memory.readBytes_add] at h
    rw [encRows, Nat.add_mul, Nat.one_mul, Nat.add_comm (k * stride), Nat.add_comm k]
    simpa using h

/-! ### The stream of an image -/

/-- The last marker rewritten is T_EOB (R119, R122). -/
theorem closeBitmap_eolBytes : closeBitmap (bytes ++ eolBytes) = bytes ++ eobBytes := by
  rw [closeBitmap, List.length_append, eolBytes_length]
  simp [eolBytes, eobBytes]

/-- The stream of an image of one row or more: its rows, the last one closed by T_EOB. -/
theorem decodeStream_closeBitmap {pix : Memory} {stride : Nat} :
    decodeStream (closeBitmap (encRows pix stride 0 (k + 1))) =
      some (pix.readBytes 0 ((k + 1) * stride), k + 1) := by
  have h := standsFor_encRows (pix := pix) (stride := stride) (offset := 0) (k := k)
  have hrow := standsFor_encRow (pix.readBytes (k * stride) stride)
  rw [encRows_succ, closeBitmap_eolBytes, decodeStream_eq, h.append hrow eobBytes, decodeFrom_eobBytes,
    Nat.add_mul k, Nat.one_mul, Memory.readBytes_add, List.nil_append, Nat.zero_add, Nat.zero_add, Nat.add_zero]

/-- Settles O41: an accepted image is a positive number of whole rows. -/
theorem decodeOfTheStreamIsTheImage : Obligations.DecodeOfTheStreamIsTheImage := by
  intro pix width imageSize cap bytes h
  unfold encodeImage at h
  split at h
  · cases h
  · next hcheck =>
    cases h
    obtain ⟨hw, hsize, hmod, -⟩ := checkLaunch_eq_none.mp hcheck
    have hrows : imageSize / strideOf width * strideOf width = imageSize :=
      Nat.div_mul_cancel (Nat.dvd_of_mod_eq_zero hmod)
    obtain ⟨k, hk⟩ : ∃ k, imageSize / strideOf width = k + 1 :=
      Nat.exists_eq_succ_of_ne_zero fun h0 => hsize (by rw [← hrows, h0, Nat.zero_mul])
    rw [hk] at hrows ⊢
    rw [decodeStream_closeBitmap, hrows]

end Sys2Proof.Machine
end

section
/-! The selection of the next operation (R96, R97): the row of Table R97 that holds, what a step runs for each kind of
turn, and how PHASE moves (Table R123). -/

namespace Sys2Proof.Machine

variable {s t : State} {i : Instr} {turns : List Turn} {move : Move}

/-! ### Table R97 -/

/-- The row of Table R97 of a micro-operation holds. -/
def State.RowHolds (s : State) : Instr → Prop
  | .uDetect => s.phase = .scan ∧ s.p.toNat < s.stride.toNat
  | .uEol => s.phase = .scan ∧ s.p = s.stride
  | .uRepeat => s.phase = .run
  | .uAbs => s.phase = .lit ∧ 3 ≤ s.n.toNat
  | .uShort => s.phase = .lit ∧ s.n.toNat ≤ 2
  | .uFin => s.phase = .fin
  | _ => False

theorem State.RowHolds.mem (h : s.RowHolds i) : i ∈ microOperations := by
  cases i with
  | uDetect | uEol | uRepeat | uAbs | uShort | uFin => decide
  | _ => exact h.elim

/-- The decoder selects a micro-operation whose row holds. -/
theorem State.RowHolds.decode_eq (h : s.RowHolds i) : decode (.phase s.phase.code s.guard) = .ok (i, []) := by
  cases i with
  | uDetect => rw [h.1, State.guard_of_below h.1 h.2]; rfl
  | uEol => rw [h.1, State.guard_of_at h.1 h.2]; rfl
  | uRepeat => rw [show s.phase = .run from h]; rfl
  | uAbs => rw [h.1, State.guard_of_atLeast3 h.1 h.2]; rfl
  | uShort => rw [h.1, State.guard_of_atMost2 h.1 h.2]; rfl
  | uFin => rw [show s.phase = .fin from h]; rfl
  | _ => exact h.elim

/-- While BUSY = 1 some row holds, given `P ≤ STRIDE` in SCAN (R37, R97). -/
theorem State.exists_rowHolds (hb : s.busy = true) (hp : s.phase = .scan → s.p.toNat ≤ s.stride.toNat) :
    ∃ i, s.RowHolds i := by
  obtain hs | hr | hl | hf := Phase.busy_iff.mp hb
  · rcases Nat.lt_or_ge s.p.toNat s.stride.toNat with hlt | hge
    · exact ⟨.uDetect, hs, hlt⟩
    · exact ⟨.uEol, hs, BitVec.eq_of_toNat_eq (le_antisymm (hp hs) hge)⟩
  · exact ⟨.uRepeat, hr⟩
  · rcases Nat.lt_or_ge 2 s.n.toNat with hlt | hge
    · exact ⟨.uAbs, hl, hlt⟩
    · exact ⟨.uShort, hl, hge⟩
  · exact ⟨.uFin, hf⟩

theorem State.RowHolds.busy (h : s.RowHolds i) : s.busy = true := by
  refine Phase.busy_iff.mpr ?_
  cases i with
  | uDetect | uEol => exact .inl h.1
  | uRepeat => exact .inr (.inl h)
  | uAbs | uShort => exact .inr (.inr (.inl h.1))
  | uFin => exact .inr (.inr (.inr h))
  | _ => exact h.elim

/-- No two rows hold at once. -/
theorem State.RowHolds.unique {j : Instr} (h : s.RowHolds i) (h' : s.RowHolds j) : j = i := by
  have heq := h'.decode_eq.symm.trans h.decode_eq
  cases heq
  rfl

theorem State.whenSelected_eq_refused {b : Bool} : State.whenSelected b t = .refused .notSelected ↔ b = false := by
  cases b <;> simp [State.whenSelected]

/-- A micro-operation is turned away exactly where its row does not hold (log 9). -/
theorem micro_refused_iff (hi : i ∈ microOperations) : exec i s = .refused .notSelected ↔ ¬ s.RowHolds i := by
  simp only [microOperations, List.mem_cons, List.not_mem_nil, or_false] at hi
  rcases hi with rfl | rfl | rfl | rfl | rfl | rfl
  case inr.inr.inr.inr.inr =>
    simp only [exec, execUFin, State.RowHolds]
    split
    · next hfault =>
      have hfin : s.phase = .fin := by simpa using (Bool.and_eq_true_iff.mp hfault).1
      simp [hfin]
    · rw [State.whenSelected_eq_refused]; simp
  all_goals
    refine State.whenSelected_eq_refused.trans ?_
    simp [State.RowHolds, BitVec.lt_def]

/-- Settles O9: the row that holds is the one the decoder selects and the one operation not turned away. -/
theorem exactlyOneMicroOperationIsEnabled : Obligations.ExactlyOneMicroOperationIsEnabled := by
  intro s
  constructor
  · intro hb hp
    obtain ⟨i, hrow⟩ := State.exists_rowHolds hb hp
    refine ⟨i, hrow.mem, hrow.decode_eq, fun hno => (micro_refused_iff hrow.mem).mp hno hrow, fun j hj hne => ?_⟩
    exact (micro_refused_iff hj).mpr fun hrow' => hne (hrow.unique hrow')
  · intro hb j hj
    exact (micro_refused_iff hj).mpr fun hrow => absurd (hrow.busy.symm.trans hb) (by decide)

/-! ### What a step runs -/

/-- Where the turns are spent the core runs on. -/
theorem step_of_spent : step { s with turns := [] } = coreMove { s with turns := [] } := rfl

/-- A turn with the reset input not asserted is its move. -/
theorem step_of_move :
    step { s with turns := { reset := false, move := move } :: turns } = runMove move { s with turns := turns } := rfl

/-- An asserted reset input comes first, and the move stays the next one (R184). -/
theorem step_of_reset : step { s with turns := { reset := true, move := move } :: turns } =
    exec .hReset { s with turns := { reset := false, move := move } :: turns } := rfl

theorem commandMove_of_decode {word : BitVec 36} {rest : List Byte} (h : decode (.command word) = .ok (i, rest)) :
    commandMove word s = exec i s := by
  unfold commandMove; rw [h]

/-- A write that selects no command changes nothing (R96, R182). -/
theorem commandMove_of_error {word : BitVec 36} {e : DecodeError} (h : decode (.command word) = .error e) :
    commandMove word s = .next s := by
  unfold commandMove; rw [h]

/-- Settles O6: each kind of turn runs what its decoder gives. -/
theorem stepRunsTheDecodedOperation : Obligations.StepRunsTheDecodedOperation := by
  intro s i turns
  refine ⟨fun h => ⟨?_, ?_⟩, fun word h => ?_, fun move => step_of_reset, fun bytes rest hend h => ?_⟩
  · exact step_of_spent.trans (coreMove_of_decode h)
  · exact step_of_move.trans (coreMove_of_decode h)
  · exact step_of_move.trans (commandMove_of_decode h)
  · exact readerMove_of_token (s := { s with turns := turns, reader := { s.reader with rest := bytes } }) hend h

/-- Settles O7: such a write decodes to no command. -/
theorem otherWritesChangeNothing : Obligations.OtherWritesChangeNothing := by
  intro s turns reg data h
  have hd : decode (.command (commandWord 1 reg data)) = .error .noCommand := by
    rw [decode, decodeCommand_noCommand h]; rfl
  exact step_of_move.trans (commandMove_of_error hd)

/-- Settles O8: in the three phases BUSY = 0. -/
theorem coreIsQuiescentAtRest : Obligations.CoreIsQuiescentAtRest := by
  intro s turns h
  have hb : s.phase.busy = false := by obtain hp | hp | hp := h <;> rw [hp] <;> rfl
  exact ⟨step_of_spent.trans (coreMove_quiescent hb), step_of_move.trans (coreMove_quiescent hb)⟩

/-! ### Table R123 -/

/-- A run or a stretch of `m` bytes goes on after its next chunk where it is longer than one (R151, R166). -/
theorem ite_chunk_spent {m : Nat} {spent left : Phase} :
    (if m - min m 255 = 0 then spent else left) = if 255 < m then left else spent := by
  by_cases h : 255 < m
  · rw [if_neg (by omega), if_pos h]
  · rw [if_pos (by omega), if_neg h]

theorem State.repeatStep_phase :
    (s.repeatStep (min s.rl.toNat 255)).phase = if 255 < s.rl.toNat then .run else .scan := ite_chunk_spent

theorem State.absStep_phase :
    (s.absStep (min s.n.toNat 255)).phase = if 255 < s.n.toNat then .lit else .scan := ite_chunk_spent

theorem State.nLess1_eq {m : Nat} (h : s.n.toNat = m + 1) : s.nLess1 = BitVec.ofNat 32 m := by
  rw [State.nLess1, h, if_neg (Nat.succ_ne_zero m), Nat.add_sub_cancel]

/-- The first byte of a stretch of 2 leaves one (R167). -/
theorem State.shortStep_phase_of_two (h : s.n.toNat = 2) : s.shortStep.phase = .lit :=
  if_neg (by rw [State.nLess1_eq h]; decide)

/-- The last byte of a stretch spends it (R167). -/
theorem State.shortStep_phase_of_one (h : s.n.toNat = 1) : s.shortStep.phase = .scan :=
  if_pos (State.nLess1_eq h)

/-- An H_START that is not ignored ends in ERROR or SCAN, by its checks (R180). -/
theorem State.startStep_phase : s.startStep.phase =
    if (checkLaunch s.width.toNat s.imageSize.toNat s.outCap.toNat).isSome then .error else .scan := by
  unfold State.startStep
  cases checkLaunch s.width.toNat s.imageSize.toNat s.outCap.toNat <;> rfl

/-- Settles O22: a micro-operation's row by `micro_cases`, its move of PHASE by its effect. -/
theorem phaseMovesAreTheTable : Obligations.PhaseMovesAreTheTable := by
  intro s t
  refine ⟨fun h => ?_, fun h => ?_, fun h => ?_, fun h => ?_, fun h => ?_, fun h => ?_, fun g h => ?_, fun h => ?_⟩
  · obtain ⟨hp, hlt, rfl⟩ : s.phase = .scan ∧ s.p.toNat < s.stride.toNat ∧ t = s.detectStep := by
      simpa using micro_cases (by decide) h
    exact ⟨hp, hlt, State.detectStep_phase⟩
  · obtain ⟨hp, heq, rfl⟩ : s.phase = .scan ∧ s.p = s.stride ∧ t = s.eolStep := by
      simpa using micro_cases (by decide) h
    exact ⟨hp, heq, rfl⟩
  · obtain ⟨hp, rfl⟩ : s.phase = .run ∧ t = s.repeatStep (min s.rl.toNat 255) := by
      simpa using micro_cases (by decide) h
    exact ⟨hp, State.repeatStep_phase⟩
  · obtain ⟨hp, hn, rfl⟩ : s.phase = .lit ∧ 3 ≤ s.n.toNat ∧ t = s.absStep (min s.n.toNat 255) := by
      simpa using micro_cases (by decide) h
    exact ⟨hp, hn, State.absStep_phase⟩
  · obtain ⟨hp, hn, rfl⟩ : s.phase = .lit ∧ s.n.toNat ≤ 2 ∧ t = s.shortStep := by
      simpa using micro_cases (by decide) h
    exact ⟨hp, hn, State.shortStep_phase_of_two, State.shortStep_phase_of_one⟩
  · obtain ⟨hp, -, rfl⟩ : s.phase = .fin ∧ 2 ≤ s.outptr.toNat ∧ t = s.finStep := by
      simpa using micro_cases (by decide) h
    exact ⟨hp, rfl⟩
  · cases h
    split
    · rfl
    · exact State.startStep_phase
  · cases h; rfl

end Sys2Proof.Machine
end

section
/-! The streams of accepted images (R117, R126, R247, R248): what Stride gives, that an accepted image is one row or more,
and that its stream is the marked rows with the last marker rewritten. -/

namespace Sys2Proof.Machine

variable {pix : Memory} {bytes row : List Byte} {w size cap stride offset k len : Nat}

/-! ### Stride -/

/-- Settles O37: in the sum `w + (4 - w % 4) % 4` every part is linear arithmetic. -/
theorem strideRoundsUpToFour : Obligations.StrideRoundsUpToFour := by
  intro w
  unfold strideOf
  refine ⟨?_, ?_, ?_, ?_, ?_, ?_⟩ <;> omega

theorem strideOf_eq_zero : strideOf w = 0 ↔ w = 0 := by unfold strideOf; omega

theorem four_le_strideOf (h : w ≠ 0) : 4 ≤ strideOf w := by unfold strideOf; omega

/-- Of the width the checks see the stride only: it is 0 exactly where the width is. -/
theorem checkLaunch_congr {w' : Nat} (h : strideOf w = strideOf w') : checkLaunch w size cap = checkLaunch w' size cap := by
  have hzero : w = 0 ↔ w' = 0 := by rw [← strideOf_eq_zero, h, strideOf_eq_zero]
  simp only [checkLaunch, h, hzero]

/-- Settles O40: the checks and the rows see the stride only. -/
theorem widthMattersOnlyThroughTheStride : Obligations.WidthMattersOnlyThroughTheStride := by
  intro pix w1 w2 size cap h
  rw [encodeImage, encodeImage, checkLaunch_congr h, h]

/-! ### Accepted images -/

theorem encodeImage_of_error {code : BitVec 4} (h : checkLaunch w size cap = some code) :
    encodeImage pix w size cap = .error code := by rw [encodeImage, h]

theorem encodeImage_of_none (h : checkLaunch w size cap = none) :
    encodeImage pix w size cap = .ok (closeBitmap (encRows pix (strideOf w) 0 (size / strideOf w))) := by
  rw [encodeImage, h]

/-- `Encode` gives a stream exactly where the checks pass. -/
theorem encodeImage_eq_ok : encodeImage pix w size cap = .ok bytes ↔
    checkLaunch w size cap = none ∧ bytes = closeBitmap (encRows pix (strideOf w) 0 (size / strideOf w)) := by
  cases h : checkLaunch w size cap with
  | none => simp [encodeImage_of_none h, eq_comm]
  | some code => simp [encodeImage_of_error h]

/-- An accepted image is a positive number of whole rows. -/
theorem rows_of_checkLaunch (h : checkLaunch w size cap = none) :
    1 ≤ size / strideOf w ∧ size / strideOf w * strideOf w = size := by
  obtain ⟨-, hsize, hmod, -⟩ := checkLaunch_eq_none.mp h
  have hrows : size / strideOf w * strideOf w = size := Nat.div_mul_cancel (Nat.dvd_of_mod_eq_zero hmod)
  refine ⟨Nat.pos_of_ne_zero fun h0 => hsize ?_, hrows⟩
  rw [← hrows, h0, Nat.zero_mul]

/-! ### The last marker -/

/-- One row or more end with a marker, which the end of the bitmap rewrites (R119). -/
theorem encRows_closeBitmap (h : 1 ≤ k) : ∃ body, encRows pix stride 0 k = body ++ eolBytes ∧
    closeBitmap (encRows pix stride 0 k) = body ++ eobBytes := by
  obtain ⟨k, rfl⟩ := Nat.exists_eq_add_of_le' h
  exact ⟨_, encRows_succ, by rw [encRows_succ, closeBitmap_eolBytes]⟩

theorem closeBitmap_length : (closeBitmap bytes).length = bytes.length := List.length_set

/-! ### What a row costs at least -/

theorem encLit_length_pos (h : bytes ≠ []) : 1 ≤ (encLit bytes).length := by
  have := List.length_pos_of_ne_nil h
  rw [encLit_length]; split <;> omega

/-- A row has a token, of 2 bytes at least. -/
theorem two_le_encRow_length (h : row ≠ []) : 2 ≤ (encRow row).length := by
  have heven := encRow_length_even row
  suffices 1 ≤ (encRow row).length by omega
  obtain ⟨v, rest, rfl⟩ := List.exists_cons_of_ne_nil h
  by_cases hrun : 3 ≤ runLen (v :: rest)
  · rw [encRow_of_run hrun, List.length_append, encRun_length]
    omega
  · have hlit := litLen_pos h
    have hpos := encLit_length_pos (bytes := (v :: rest).take (litLen (v :: rest))) (by simp; omega)
    rw [encRow_of_lit h (by omega), List.length_append]
    omega

theorem encRows_length_even : (encRows pix stride offset k).length % 2 = 0 := by
  induction k generalizing offset with
  | zero => rfl
  | succ k ih =>
    have hrow := encRow_length_even (pix.readBytes offset stride)
    have hrest := ih (offset := offset + stride)
    rw [encRows, List.length_append, List.length_append, eolBytes_length]
    omega

/-- Each row costs a token and a marker at least (R248). -/
theorem le_encRows_length (h : 1 ≤ stride) : 4 * k ≤ (encRows pix stride offset k).length := by
  induction k generalizing offset with
  | zero => exact Nat.zero_le _
  | succ k ih =>
    have hne : pix.readBytes offset stride ≠ [] := List.ne_nil_of_length_pos (by rwa [Memory.readBytes_length])
    have hrow := two_le_encRow_length hne
    have hrest := ih (offset := offset + stride)
    rw [encRows, List.length_append, List.length_append, eolBytes_length]
    omega

/-- Settles O39: rewriting the last marker keeps the length of the rows, of which there is one at least. -/
theorem encodedSizeIsBounded : Obligations.EncodedSizeIsBounded := by
  intro pix width imageSize cap bytes h
  obtain ⟨hcheck, rfl⟩ := encodeImage_eq_ok.mp h
  obtain ⟨hw, -, -, hcap⟩ := checkLaunch_eq_none.mp hcheck
  obtain ⟨hpos, hrows⟩ := rows_of_checkLaunch hcheck
  have hstride := four_le_strideOf hw
  have heven := encRows_length_even (pix := pix) (stride := strideOf width) (offset := 0) (k := imageSize / strideOf width)
  have hlow := le_encRows_length (pix := pix) (stride := strideOf width) (offset := 0) (k := imageSize / strideOf width)
    (by omega)
  have hhigh := encRows_length_le (pix := pix) (offset := 0) (k := imageSize / strideOf width) hstride
  rw [hrows] at hhigh
  obtain ⟨body, -, hclose⟩ := encRows_closeBitmap (pix := pix) (stride := strideOf width) hpos
  rw [closeBitmap_length]
  refine ⟨heven, by omega, hlow, hhigh, hcap, ?_⟩
  rw [← closeBitmap_length, hclose, List.length_append, eobBytes_length, Nat.add_sub_cancel, List.drop_left]
  rfl

end Sys2Proof.Machine
end

section
/-! The scanline multiplexer's micro-operations, each selected by its row of Table R97 (R120, R121, R122): what they
write, with their frames by `micro_frame` and `micro_result`. -/

namespace Sys2Proof.Machine

variable {s t : State} {i : Instr}

theorem Memory.stored_writeBytes {m : Memory} {a : Nat} {bytes : List Byte} (h : m.wf = true) :
    m.Stored (m.writeBytes a bytes) a bytes :=
  ⟨Memory.readBytes_writeBytes h, fun _ hi => Memory.read_writeBytes_outside h hi⟩

theorem Phase.flags_of_busy {ph : Phase} (h : ph.busy = true) : ph.isError = false ∧ ph.isDone = false := by
  obtain rfl | rfl | rfl | rfl := Phase.busy_iff.mp h <;> exact ⟨rfl, rfl⟩

/-- While BUSY = 1 no other flag is set, so STATUS is ERR_CODE and BUSY (R33). -/
theorem State.status_eq_of_busy (hs : s.busy = true) (ht : t.busy = true) (herr : t.errCode = s.errCode) :
    t.status = s.status := by
  obtain ⟨he, hd⟩ := Phase.flags_of_busy hs
  obtain ⟨he', hd'⟩ := Phase.flags_of_busy ht
  rw [State.status, State.status, herr, he, he', hd, hd', show s.phase.busy = true from hs,
    show t.phase.busy = true from ht]

/-! ### Selected operations answer -/

theorem exec_uDetect (hp : s.phase = .scan) (hlt : s.p.toNat < s.stride.toNat) :
    exec .uDetect s = .next s.detectStep :=
  State.whenSelected_eq_next.mpr ⟨by simp [hp, BitVec.lt_def, hlt], rfl⟩

theorem exec_uEol (hp : s.phase = .scan) (hend : s.p = s.stride) : exec .uEol s = .next s.eolStep :=
  State.whenSelected_eq_next.mpr ⟨by simp [hp, hend], rfl⟩

theorem exec_uFin (hp : s.phase = .fin) (h2 : 2 ≤ s.outptr.toNat) : exec .uFin s = .next s.finStep := by
  have hfault : ¬ s.outptr.toNat < 2 := by omega
  rw [exec, execUFin, if_neg (by simp [hfault])]
  exact State.whenSelected_eq_next.mpr ⟨by simp [hp], rfl⟩

/-! ### U_DETECT -/

theorem State.detectStep_of_run (h : 3 ≤ runLen s.rowRest) : s.detectStep =
    ({ s with val := s.pix.read (s.rowoff.toNat + s.p.toNat), rl := BitVec.ofNat 32 (runLen s.rowRest) }).toPhase .run :=
  if_pos h

theorem State.detectStep_of_lit (h : runLen s.rowRest < 3) :
    s.detectStep = ({ s with n := BitVec.ofNat 32 (litLen s.rowRest) }).toPhase .lit :=
  if_neg (by omega)

/-- U_DETECT moves neither pointer and leaves the row where it is (R120). -/
theorem State.detectStep_pointers : s.detectStep.stride = s.stride ∧ s.detectStep.rowoff = s.rowoff ∧
    s.detectStep.p = s.p ∧ s.detectStep.outptr = s.outptr := by
  unfold State.detectStep
  split
  · exact State.toPhase_keeps (.inr rfl)
  · exact State.toPhase_keeps (.inr rfl)

/-- Settles O15: what is left of the row is shorter than 2^32, so its run or stretch fits the register. -/
theorem uDetectFollowsItsPseudocode : Obligations.UDetectFollowsItsPseudocode := by
  intro s hp hlt
  have h := exec_uDetect hp hlt
  have hmem : Instr.uDetect ∈ microOperations := by decide
  have hbusy := micro_stays_busy hmem h (by decide)
  obtain ⟨hconfig, houtside, hpix, herr⟩ := micro_frame hmem h
  obtain ⟨henc, hsettled⟩ := micro_result hmem h (by decide)
  obtain ⟨hstride, hrowoff, hp', houtptr⟩ := State.detectStep_pointers (s := s)
  have hlen := s.rowRest_length
  have hfits := s.stride.isLt
  refine ⟨_, h, hconfig, ⟨henc, herr⟩, houtside, hpix, State.detectStep_out,
    State.status_eq_of_busy (micro_busy hmem h) hbusy herr, hsettled, hstride, hrowoff, hp', houtptr,
    fun hrun => ?_, fun hrun => ?_⟩
  · have hle := runLen_le (row := s.rowRest)
    rw [State.detectStep_of_run hrun]
    refine ⟨rfl, by simp [hp], ?_, by simp [hp]⟩
    rw [State.toPhase_rl, if_neg (by simp [hp])]
    exact word_ofNat_toNat (by omega)
  · have hle := litLen_le (row := s.rowRest)
    rw [State.detectStep_of_lit hrun]
    refine ⟨rfl, ?_, by simp [hp], by simp [hp]⟩
    rw [State.toPhase_n, if_neg (by simp [hp])]
    exact word_ofNat_toNat (by omega)

/-! ### U_EOL -/

/-- Settles O16: the marker is appended by `emit`, and in SCAN the working registers of the packers are dead and stay. -/
theorem uEolFollowsItsPseudocode : Obligations.UEolFollowsItsPseudocode := by
  intro s hp hend hwf hout hrow
  have h := exec_uEol hp hend
  have hmem : Instr.uEol ∈ microOperations := by decide
  have hbusy := micro_stays_busy hmem h (by decide)
  obtain ⟨hconfig, houtside, hpix, herr⟩ := micro_frame hmem h
  obtain ⟨hstride, hrowoff, hp', houtptr⟩ := State.eolStep_pointers hout hrow
  refine ⟨_, h, Memory.stored_writeBytes hwf, houtptr, hrowoff, hp', rfl, hconfig, ⟨rfl, herr⟩, houtside, hpix,
    State.status_eq_of_busy (micro_busy hmem h) hbusy herr, rfl, hstride, ?_, ?_, ?_⟩ <;>
  simp [State.eolStep, hp]

/-! ### U_FIN -/

/-- Settles O17: the last marker's two bytes are stored again, and nothing of the packers is live in FIN. -/
theorem uFinFollowsItsPseudocode : Obligations.UFinFollowsItsPseudocode := by
  intro s hp hwf h2
  have h := exec_uFin hp h2
  obtain ⟨hconfig, houtside, hpix, herr⟩ := micro_frame (by decide) h
  refine ⟨_, h, Memory.stored_writeBytes hwf, rfl, rfl, rfl, rfl, hconfig, herr, houtside, hpix, rfl, ?_, ?_, ?_⟩ <;>
  simp [State.finStep, hp]

end Sys2Proof.Machine
end

section
/-! A launch from H_START to DONE (R125, R187, R246, R249). U_FIN closes the rows that the invariant of R37 says stand in
OUT. Before it every micro-operation appends to OUT and leaves fewer steps to go (`State.stepsLeft`), so a core that runs
on reaches FIN. -/

namespace Sys2Proof.Machine

variable {s t u : State} {i : Instr} {c a j k : Nat} {bytes : List Byte} {ph : Phase} {rl n : Word}

/-! ### The end of a launch -/

/-- The image of a launch in progress is one the checks of H_START accept (R201). -/
theorem State.LaunchRegisters.checkLaunch_eq (h : s.LaunchRegisters) :
    checkLaunch s.width.toNat s.imageSize.toNat s.outCap.toNat = none :=
  checkLaunch_eq_none.mpr ⟨Nat.ne_of_gt h.width_pos, Nat.ne_of_gt h.size_pos, h.stride_eq ▸ h.whole_rows, h.cap_enough⟩

/-- In FIN all rows stand in OUT, the last marker ends there, and rewriting it makes them the stream (R122). -/
theorem State.LaunchHolds.finStep_stream (h : s.LaunchHolds) (hwf : s.out.wf = true) (hp : s.phase = .fin) :
    ∃ bytes, s.encoded = .ok bytes ∧ s.outptr.toNat = bytes.length ∧ 2 ≤ s.outptr.toNat ∧
      s.finStep.out.readBytes 0 bytes.length = bytes := by
  obtain ⟨hr, hs⟩ := h
  have hcheck := hr.checkLaunch_eq
  have hall := hs.all_written hp
  rw [hr.stride_eq] at hall
  obtain ⟨body, hrows, hclose⟩ := encRows_closeBitmap (pix := s.pix) (stride := strideOf s.width.toNat)
    (rows_of_checkLaunch hcheck).1
  have houtptr : s.outptr.toNat = body.length + 2 := by
    rw [← Memory.readBytes_length (m := s.out) (a := 0) (k := s.outptr.toNat), hall, hrows, List.length_append, eolBytes_length]
  have hbody : s.out.readBytes 0 body.length = body := by
    rw [← Memory.readBytes_take (k := s.outptr.toNat) (by omega), hall, hrows, List.take_left]
  have hout : s.finStep.out = s.out.writeBytes body.length eobBytes := by
    rw [show body.length = s.outptr.toNat - 2 by omega]; rfl
  refine ⟨_, encodeImage_of_none hcheck, ?_, by omega, ?_⟩
  · rw [hclose, List.length_append, eobBytes_length, houtptr]
  · rw [hclose, hout, List.length_append, Memory.readBytes_writeBytes_append hwf, hbody]

/-- After U_FIN the host can rely on the stream and on what it could rely on before the launch (R61). -/
theorem State.outKnown_finStep (hb : s.busy = false) (hsettled : u.settled = s.settled) :
    u.finStep.outKnown a = true ↔ a < u.outptr.toNat ∨ s.outKnown a = true := by
  have hsame : u.finStep.outKnown a = (s.settle 0 u.outptr.toNat).outKnown a := by
    have hb' : (s.settle 0 u.outptr.toNat).busy = u.finStep.busy := hb
    have hs' : (s.settle 0 u.outptr.toNat).settled = u.finStep.settled := by
      rw [State.settle_settled, ← hsettled]; rfl
    rw [State.outKnown, State.outKnown, hb', hs']
  rw [hsame, State.outKnown_settle hb, Nat.zero_add]
  simp only [Nat.zero_le, true_and]

/-- Settles O50: the invariant of R37 in FIN gives the rows, whatever came between the micro-operations. -/
theorem finishedLaunchHoldsTheStream : Obligations.FinishedLaunchHoldsTheStream := by
  rintro s ⟨-, hwf⟩ hok hp
  have hb : s.busy = true := Phase.busy_iff.mpr (.inr (.inr (.inr hp)))
  obtain ⟨bytes, hencoded, hlen, h2, hread⟩ := State.LaunchHolds.finStep_stream (hok hb) hwf hp
  have hsize : s.finStep.encSize.toNat = bytes.length := hlen
  refine ⟨_, bytes, exec_uFin hp h2, hencoded, rfl, hsize, by rw [hsize, hread], fun a ha => ?_⟩
  exact (State.outKnown_finStep (s := { s with phase := .idle }) rfl rfl).mpr (.inl ha)

/-! ### How a launch goes on -/

/-- A bound on the steps to DONE (R246): two for each source byte left, one for the marker of each row left, and one more
where an activation has still to be chosen or the launch to be ended. -/
def State.stepsLeft (s : State) : Nat :=
  2 * (s.imageSize.toNat - (s.rowoff.toNat + s.p.toNat)) + (s.imageSize.toNat - s.rowoff.toNat) / s.stride.toNat +
    if s.phase = .run ∨ s.phase = .lit then 0 else 1

/-- From `s` to `t` bytes are appended to OUT, and there are fewer steps to go. -/
structure State.Advances (s t : State) : Prop where
  appends : ∃ bytes, t.out = s.out.writeBytes s.outptr.toNat bytes ∧
    t.outptr.toNat = s.outptr.toNat + bytes.length
  fewer : t.stepsLeft < s.stepsLeft

/-- A packing step consumes a source byte or more, which pays for the next choice of an activation. -/
theorem State.LaunchHolds.pack_advances (h : s.LaunchHolds) (hp : s.phase = .run ∨ s.phase = .lit) (hc : 1 ≤ c)
    (hend : s.p.toNat + c ≤ s.activationEnd) (hph : ph.inRow = true) (hcost : bytes.length ≤ 2 * c) :
    s.Advances (s.pack bytes c rl n ph) := by
  obtain ⟨hr, hs⟩ := h
  have hin : s.phase.inRow = true := by rcases hp with hp | hp <;> rw [hp] <;> rfl
  have hinside := hr.end_inside
  have hrow := hr.row_end_le (Phase.ne_fin_of_inRow hin)
  have hpack := State.pack_packs (ph := ph) (rl := rl) (n := n) hr hs hin hph (by omega) hcost
  refine ⟨⟨bytes, hpack.out, hpack.outptr⟩, ?_⟩
  obtain ⟨-, hsize, -⟩ := hpack.config
  rw [State.stepsLeft, State.stepsLeft, hsize, hpack.rowoff, hpack.stride, hpack.p, if_pos hp]
  split <;> omega

/-- U_DETECT spends the choice of the activation. -/
theorem State.detectStep_advances (hp : s.phase = .scan) : s.Advances s.detectStep := by
  obtain ⟨hstride, hrowoff, hp', houtptr⟩ := State.detectStep_pointers (s := s)
  have hsize : s.detectStep.imageSize = s.imageSize := by unfold State.detectStep; split <;> rfl
  have hphase : s.detectStep.phase = .run ∨ s.detectStep.phase = .lit := by
    rw [State.detectStep_phase]; split <;> simp
  refine ⟨⟨[], State.detectStep_out, congrArg BitVec.toNat houtptr⟩, ?_⟩
  rw [State.stepsLeft, State.stepsLeft, hsize, hstride, hrowoff, hp', if_pos hphase, if_neg (by simp [hp])]
  omega

theorem State.eolStep_phase : s.eolStep.phase =
    if s.rowoff.toNat + s.stride.toNat < s.imageSize.toNat then .scan else .fin := rfl

/-- U_EOL spends the marker of its row. -/
theorem State.LaunchHolds.eolStep_advances (h : s.LaunchHolds) (hp : s.phase = .scan) (hend : s.p = s.stride) :
    s.Advances s.eolStep := by
  have hcost := h.marker_fits hp hend
  obtain ⟨hr, -⟩ := h
  have hstride := hr.four_le_stride
  have hrow := hr.row_end_le (by rw [hp]; decide)
  have hcap := hr.cap_enough
  have := s.outCap.isLt
  obtain ⟨hstride', hrowoff, hp', houtptr⟩ := State.eolStep_pointers (s := s) (by omega) (by omega)
  have hphase : ¬ (s.eolStep.phase = .run ∨ s.eolStep.phase = .lit) := by
    rw [State.eolStep_phase]; split <;> decide
  have hsize : s.eolStep.imageSize = s.imageSize := rfl
  refine ⟨⟨eolBytes, rfl, houtptr⟩, ?_⟩
  rw [State.stepsLeft, State.stepsLeft, hsize, hstride', hrowoff, hp', if_neg hphase, if_neg (by simp [hp]), hend,
    Nat.div_eq_sub_div (a := s.imageSize.toNat - s.rowoff.toNat) (by omega) (by omega), Nat.sub_sub]
  simp

/-- Every micro-operation but U_FIN advances the launch. -/
theorem micro_advances (h : s.LaunchHolds) (hi : i ∈ microOperations) (ht : exec i s = .next t) (hne : i ≠ .uFin) :
    s.Advances t := by
  obtain ⟨-, hp, -, rfl⟩ | ⟨-, hp, hend, rfl⟩ | ⟨-, hp, rfl⟩ | ⟨-, hp, h3, rfl⟩ | ⟨-, hp, h2, rfl⟩ | ⟨hfin, -⟩ :=
    micro_cases hi ht
  · exact State.detectStep_advances hp
  · exact h.eolStep_advances hp hend
  · have hpos := h.1.run_pos hp
    rw [State.repeatStep_eq_pack]
    exact h.pack_advances (.inl hp) (by omega) (by rw [State.activationEnd_run hp]; omega) (by split <;> rfl)
      (by rw [repeatBytes_length]; omega)
  · have hsource : (s.source (min s.n.toNat 255)).length = min s.n.toNat 255 := Memory.readBytes_length
    rw [State.absStep_eq_pack]
    exact h.pack_advances (.inr hp) (by omega) (by rw [State.activationEnd_lit hp]; omega) (by split <;> rfl)
      (by rw [absBytes_length, hsource]; omega)
  · have hpos := h.1.lit_pos hp
    rw [State.shortStep_eq_pack]
    exact h.pack_advances (.inr hp) le_rfl (by rw [State.activationEnd_lit hp]; omega) (by split <;> rfl)
      (by rw [repeatBytes_length])
  · exact absurd hfin hne

/-- Where its row of Table R97 holds a micro-operation answers, U_FIN in FIN apart, which may fault (log 7). -/
theorem State.RowHolds.exec_next (h : s.RowHolds i) (hne : i ≠ .uFin) : ∃ t, exec i s = .next t := by
  cases i with
  | uDetect => exact ⟨_, exec_uDetect h.1 h.2⟩
  | uEol => exact ⟨_, exec_uEol h.1 h.2⟩
  | uRepeat => exact ⟨_, State.whenSelected_eq_next.mpr ⟨by simp [show s.phase = .run from h], rfl⟩⟩
  | uAbs => exact ⟨_, State.whenSelected_eq_next.mpr ⟨by simp [h.1, h.2], rfl⟩⟩
  | uShort => exact ⟨_, State.whenSelected_eq_next.mpr ⟨by simp [h.1, h.2], rfl⟩⟩
  | uFin => exact absurd rfl hne
  | _ => exact h.elim

/-! ### The core alone -/

/-- A launch is in progress and the turns are spent: every step from here on is the core's (log 1). -/
structure State.RunsAlone (s : State) : Prop where
  turns : s.turns = []
  busy : s.busy = true
  buffers : s.BuffersWf
  holds : s.LaunchHolds

/-- `t` is a later state of the launch of `s`: from OUTPTR on OUT is as it was, and so are the
launch's inputs, ERR_CODE and what the host has settled. -/
structure State.Continues (s t : State) : Prop where
  config : s.SameConfig t
  errCode : t.errCode = s.errCode
  pix : t.pix = s.pix
  settled : t.settled = s.settled
  outptr_le : s.outptr.toNat ≤ t.outptr.toNat
  beyond : ∀ a, t.outptr.toNat ≤ a → t.out.read a = s.out.read a

theorem State.Continues.refl : s.Continues s := ⟨⟨rfl, rfl, rfl⟩, rfl, rfl, rfl, le_rfl, fun _ _ => rfl⟩

theorem State.Continues.trans (h : s.Continues t) (h' : t.Continues u) : s.Continues u := by
  obtain ⟨⟨hw, hs, hc⟩, herr, hpix, hsettled, hle, hbeyond⟩ := h
  obtain ⟨⟨hw', hs', hc'⟩, herr', hpix', hsettled', hle', hbeyond'⟩ := h'
  exact
    { config := ⟨hw'.trans hw, hs'.trans hs, hc'.trans hc⟩
      errCode := herr'.trans herr
      pix := hpix'.trans hpix
      settled := hsettled'.trans hsettled
      outptr_le := hle.trans hle'
      beyond := fun a ha => (hbeyond' a ha).trans (hbeyond a (hle'.trans ha)) }

/-- What is appended leaves the rest of OUT alone. -/
theorem micro_continues (hwf : s.out.wf = true) (hi : i ∈ microOperations) (ht : exec i s = .next t) (hne : i ≠ .uFin)
    (hadvances : s.Advances t) : s.Continues t := by
  obtain ⟨hconfig, -, hpix, herr⟩ := micro_frame hi ht
  obtain ⟨-, hsettled⟩ := micro_result hi ht hne
  obtain ⟨bytes, hout, houtptr⟩ := hadvances.appends
  refine ⟨hconfig, herr, hpix, hsettled, by omega, fun a ha => ?_⟩
  rw [hout]
  exact Memory.read_writeBytes_outside hwf (.inr (by omega))

/-- With the turns spent a step is the micro-operation whose row holds. -/
theorem State.RowHolds.step_eq (h : s.RowHolds i) (hturns : s.turns = []) : step s = exec i s := by
  have hcore : step s = coreMove s := by unfold step runTurn; rw [hturns]
  exact hcore.trans (coreMove_of_decode h.decode_eq)

/-- Before FIN the core alone takes a step, and the launch goes on with fewer steps to go. -/
theorem State.RunsAlone.exists_step (h : s.RunsAlone) (hfin : s.phase ≠ .fin) :
    ∃ t, step s = .next t ∧ t.RunsAlone ∧ s.Continues t ∧ t.stepsLeft < s.stepsLeft := by
  obtain ⟨hturns, hb, hbuffers, hholds⟩ := h
  obtain ⟨i, hrow⟩ := State.exists_rowHolds hb fun hp => by
    rw [← State.activationEnd_scan hp]; exact hholds.1.end_inside
  have hne : i ≠ .uFin := by rintro rfl; exact hfin hrow
  obtain ⟨t, ht⟩ := hrow.exec_next hne
  have hi := hrow.mem
  have hadvances := micro_advances hholds hi ht hne
  have hbusy := micro_stays_busy hi ht hne
  obtain ⟨-, ⟨hturns', -⟩, -⟩ := micro_frame hi ht
  refine ⟨t, (hrow.step_eq hturns).trans ht, ⟨hturns'.trans hturns, hbusy, ?_, ?_⟩,
    micro_continues hbuffers.2 hi ht hne hadvances, hadvances.fewer⟩
  · exact buffersWf_keptByEffects.micro hbuffers hi ht
  · exact micro_launchOk hbuffers.2 (fun _ => hholds) hi ht hbusy

/-! ### Runs of the core alone -/

theorem State.reaches_zero : s.Reaches 0 t ↔ t = s :=
  ⟨fun h => (Host.Outcome.next.inj h).symm, fun h => h ▸ rfl⟩

theorem State.reaches_succ (h : step s = .next t) : s.Reaches (k + 1) u ↔ t.Reaches k u := by
  unfold State.Reaches
  rw [run_succ_of_next (M := Sys2Proof.core) h]

/-- BUSY is 1 in all states the first `k` steps reach, the state before them included. -/
def State.BusyUntil (s : State) (k : Nat) : Prop := ∀ j u, j ≤ k → s.Reaches j u → u.busy = true

theorem State.BusyUntil.succ (hb : s.busy = true) (h : step s = .next t) (ht : t.BusyUntil k) : s.BusyUntil (k + 1) := by
  intro j u hj hu
  cases j with
  | zero => rw [State.reaches_zero.mp hu]; exact hb
  | succ j => exact ht j u (by omega) ((State.reaches_succ h).mp hu)

/-- In FIN the core's step is U_FIN, which the written rows let find its marker (R248). -/
theorem State.RunsAlone.step_fin (h : s.RunsAlone) (hfin : s.phase = .fin) : step s = .next s.finStep := by
  obtain ⟨-, -, -, h2, -⟩ := h.holds.finStep_stream h.buffers.2 hfin
  have hrow : s.RowHolds .uFin := hfin
  exact (hrow.step_eq h.turns).trans (exec_uFin hfin h2)

/-- The core alone brings the launch through FIN to DONE within the bound, with BUSY = 1 until then. -/
theorem State.RunsAlone.reaches_finStep {s : State} (h : s.RunsAlone) : ∃ k u, k + 1 ≤ s.stepsLeft ∧
    s.Reaches (k + 1) u.finStep ∧ s.BusyUntil k ∧ s.Continues u ∧ u.RunsAlone ∧ u.phase = .fin := by
  by_cases hfin : s.phase = .fin
  · refine ⟨0, s, ?_, (State.reaches_succ (h.step_fin hfin)).mpr (State.reaches_zero.mpr rfl), fun j u hj hu => ?_,
      .refl, h, hfin⟩
    · rw [State.stepsLeft, if_neg (by simp [hfin])]
      exact Nat.le_add_left _ _
    · obtain rfl : j = 0 := Nat.le_zero.mp hj
      rw [State.reaches_zero.mp hu]
      exact h.busy
  · obtain ⟨t, hstep, ht, hcont, hless⟩ := h.exists_step hfin
    obtain ⟨k, u, hk, hreach, hbusy, hcont', hu⟩ := ht.reaches_finStep
    exact ⟨k + 1, u, by omega, (State.reaches_succ hstep).mpr hreach, .succ h.busy hstep hbusy, hcont.trans hcont', hu⟩
termination_by s.stepsLeft

/-- Where a launch is in FIN, U_FIN leaves its stream in OUT, and beyond it what was there before the launch (R249). -/
theorem State.Continues.finStep_stored (hcont : s.Continues u) (h : u.RunsAlone) (hfin : u.phase = .fin) :
    ∃ bytes, s.encoded = .ok bytes ∧ u.outptr.toNat = bytes.length ∧ s.out.Stored u.finStep.out 0 bytes := by
  obtain ⟨bytes, hencoded, hlen, h2, hread⟩ := h.holds.finStep_stream h.buffers.2 hfin
  obtain ⟨hwidth, hsize, hcap⟩ := hcont.config
  have hsame : u.encoded = s.encoded := by
    rw [State.encoded, State.encoded, hcont.pix, hwidth, hsize, hcap]
  refine ⟨bytes, hsame ▸ hencoded, hlen, hread, fun a ha => ?_⟩
  have hfinOut : u.finStep.out.read a = u.out.read a :=
    Memory.read_writeBytes_outside h.buffers.2 (.inr (by rw [eobBytes_length]; omega))
  rw [hfinOut, hcont.beyond a (by omega)]

/-! ### H_START -/

/-- The state with its turns spent. -/
def State.spend (s : State) : State := { s with turns := [] }

/-- The command word of an H_START runs it, with BUSY = 0 (R180). -/
theorem step_of_start {ignored : BitVec 31} (hb : s.busy = false)
    (hturns : s.turns = [{ reset := false, move := .command (commandWord 1 0 (ignored ++ (1 : BitVec 1))) }]) :
    step s = .next s.spend.startStep := by
  have hmove : step s = commandMove (commandWord 1 0 (ignored ++ (1 : BitVec 1))) s.spend := by
    unfold step runTurn; rw [hturns]; rfl
  rw [hmove, commandMove_of_decode (decode_command decodeCommand_hStart)]
  exact congrArg Host.Outcome.next (if_neg (Bool.eq_false_iff.mp hb))

/-- An accepted H_START with no turn behind it leaves the core alone with the launch. -/
theorem State.launch_runsAlone (h : checkLaunch s.width.toNat s.imageSize.toNat s.outCap.toNat = none)
    (hturns : s.turns = []) (hwf : s.BuffersWf) : s.clearResult.launch.RunsAlone :=
  have hrow := State.launch_rowStart h
  ⟨hturns, rfl, hwf, hrow.launchRegisters, hrow.launchStream⟩

/-- At the start of a launch the whole image and all its rows are left. -/
theorem State.launch_stepsLeft (h : checkLaunch s.width.toNat s.imageSize.toNat s.outCap.toNat = none) :
    s.clearResult.launch.stepsLeft = 2 * s.imageSize.toNat + s.imageSize.toNat / strideOf s.width.toNat + 1 := by
  have hrow := State.launch_rowStart h
  have hstride : s.clearResult.launch.stride.toNat = strideOf s.width.toNat := hrow.stride_eq
  have hrowoff : s.clearResult.launch.rowoff = 0 := by simp [State.launch, Phase.busy]
  have hphase : s.clearResult.launch.phase = .scan := rfl
  have hsize : s.clearResult.launch.imageSize = s.imageSize := rfl
  rw [State.stepsLeft, if_neg (by simp [hphase]), hstride, hrowoff, hrow.p_zero, hsize]
  rfl

/-- Settles O51: the checks decide; an accepted H_START starts a launch that the core alone brings to DONE. -/
theorem launchComputesEncode : Obligations.LaunchComputesEncode := by
  intro s ignored hb hwf hturns
  have hstep := step_of_start hb hturns
  cases hcheck : checkLaunch s.width.toNat s.imageSize.toNat s.outCap.toNat with
  | some code =>
    have hencoded : s.encoded = .error code := encodeImage_of_error hcheck
    rw [State.startStep_of_error (s := s.spend) hb hcheck] at hstep
    rw [hencoded]
    exact ⟨_, (State.reaches_succ hstep).mpr (State.reaches_zero.mpr rfl), rfl, rfl, rfl, rfl, rfl, rfl, rfl, rfl, rfl⟩
  | none =>
    rw [State.startStep_of_none (s := s.spend) hcheck] at hstep
    have hsteps := State.launch_stepsLeft (s := s.spend) hcheck
    obtain ⟨k, u, hk, hreach, hbusy, hcont, hu, hfin⟩ :=
      (State.launch_runsAlone (s := s.spend) hcheck rfl hwf).reaches_finStep
    obtain ⟨bytes, hencoded, hlen, hstored⟩ := hcont.finStep_stored hu hfin
    have hsame : s.encoded = .ok bytes := hencoded
    rw [hsame]
    refine ⟨k + 1, u.finStep, hk.trans hsteps.le, ?_, rfl, hcont.errCode, hlen, hstored, hcont.pix, hcont.config,
      fun a => ?_, fun j v hj hjk hv => ?_⟩
    · rw [Nat.add_comm]
      exact (State.reaches_succ hstep).mpr hreach
    · rw [← hlen]
      exact State.outKnown_finStep hb hcont.settled
    · obtain ⟨j, rfl⟩ := Nat.exists_eq_add_of_le' hj
      exact hbusy j v (by omega) ((State.reaches_succ hstep).mp hv)

end Sys2Proof.Machine
end

section
/-! PROOFS of the family 41_run_detector.md (O30): RunLen is the largest length of equal bytes from the position on.
`runLen_pos`, `runLen_le`, `runLen_getElem` and `runLen_stop` say it of what is left of the row; here it is read at the
row's own positions. -/

namespace Sys2Proof.Machine

variable {row : List Byte} {i k : Nat}

/-- Every byte within the run equals the first (R140). -/
theorem runLen_getElem? (hi : i < runLen row) : row[i]? = row[0]? := by
  have hlen := lt_of_lt_of_le hi runLen_le
  rw [List.getElem?_eq_getElem hlen, List.getElem?_eq_getElem (Nat.zero_lt_of_lt hlen), runLen_getElem hi]

/-- A longer stretch would hold the byte that stops the run, which differs from the first (R140). -/
theorem le_runLen_of_forall_getElem? (hk : k ≤ row.length) (heq : ∀ i < k, row[i]? = row[0]?) : k ≤ runLen row := by
  by_contra hlt
  have hstop : runLen row < row.length := by omega
  have hsame := heq (runLen row) (by omega)
  rw [List.getElem?_eq_getElem hstop, List.getElem?_eq_getElem (Nat.zero_lt_of_lt hstop)] at hsame
  exact runLen_stop hstop (Option.some.inj hsame)

/-- Settles O30: the bounds, equality and maximality of the run at the front of `row.drop p`. -/
theorem runLenIsTheLongestRun : Obligations.RunLenIsTheLongestRun := by
  intro row p hp
  refine ⟨runLen_pos (by simpa using hp), ?bound, fun i hi => ?equal, fun k hk heq => ?maximal⟩
  case bound => simpa using runLen_le (row := row.drop p)
  case equal => simpa using runLen_getElem? hi
  case maximal => exact le_runLen_of_forall_getElem? (by simpa using hk) (by simpa using heq)

end Sys2Proof.Machine
end

section
/-! PROOFS of the family 42_run_packer.md (O18, O34, O35). U_REPEAT is one packing step (`State.pack`), so its pointers
and its store are those of `State.Packs`; EncRun is taken apart by `encRun_peel`. -/

namespace Sys2Proof.Machine

variable {s : State} {bytes : List Byte} {c : Nat} {rl n : Word} {ph : Phase}

/-! ### U_REPEAT -/

/-- A packing step packs in any state where both sums fit their registers. -/
theorem State.pack_packs_of_lt (hin : s.phase.inRow = true) (hph : ph.inRow = true) (hp : s.p.toNat + c < 2 ^ 32)
    (hout : s.outptr.toNat + bytes.length < 2 ^ 32) : s.Packs (s.pack bytes c rl n ph) c bytes :=
  State.packs_toPhase hin hph ⟨rfl, rfl, rfl⟩ rfl rfl rfl (State.fit_toNat hp) (State.emit_outptr_toNat hout) rfl

theorem exec_uRepeat (hp : s.phase = .run) : exec .uRepeat s = .next (s.repeatStep (min s.rl.toNat 255)) :=
  State.whenSelected_eq_next.mpr ⟨by simp [hp], rfl⟩

theorem State.repeatStep_packs (hp : s.phase = .run) (hfit : s.p.toNat + c < 2 ^ 32)
    (hout : s.outptr.toNat + 2 < 2 ^ 32) :
    s.Packs (s.repeatStep c) c (repeatBytes (BitVec.ofNat 8 c) s.val) :=
  State.pack_packs_of_lt (by rw [hp]; rfl) (by split <;> rfl) hfit hout

/-- A run longer than one chunk goes on with 255 bytes less and the same byte (R151). -/
theorem State.repeatStep_goes_on (h : 255 < s.rl.toNat) :
    (s.repeatStep (min s.rl.toNat 255)).phase = .run ∧
      (s.repeatStep (min s.rl.toNat 255)).rl.toNat = s.rl.toNat - 255 ∧
      (s.repeatStep (min s.rl.toNat 255)).val = s.val := by
  have hfits := s.rl.isLt
  have hphase : (if s.rl.toNat - 255 = 0 then Phase.scan else Phase.run) = .run := if_neg (by omega)
  rw [Nat.min_eq_right h.le, State.repeatStep_eq_pack, State.pack_phase, State.pack_rl hphase, State.pack_val hphase]
  exact ⟨hphase, word_ofNat_toNat (by omega), rfl⟩

/-- Settles O18: the packing step gives the store, both pointers and the row; RUN keeps N, which is dead there. -/
theorem uRepeatFollowsItsPseudocode : Obligations.URepeatFollowsItsPseudocode := by
  intro s hp hwf hout hfit
  have h := exec_uRepeat hp
  have hmem : Instr.uRepeat ∈ microOperations := by decide
  have hbusy := micro_stays_busy hmem h (by decide)
  obtain ⟨hconfig, houtside, hpix, herr⟩ := micro_frame hmem h
  obtain ⟨henc, hsettled⟩ := micro_result hmem h (by decide)
  have hpacks := State.repeatStep_packs hp hfit hout
  refine ⟨_, h, ?stored, hpacks.outptr, hpacks.p, fun hspent => ?spent, State.repeatStep_goes_on, hconfig, ⟨henc, herr⟩,
    houtside, hpix, State.status_eq_of_busy (micro_busy hmem h) hbusy herr, hsettled, hpacks.stride, hpacks.rowoff, ?n⟩
  case stored => rw [hpacks.out]; exact Memory.stored_writeBytes hwf
  case spent => exact State.repeatStep_phase.trans (if_neg (by omega))
  case n => simp [State.repeatStep, hp]

/-! ### EncRun -/

/-- Settles O34: EncRun with its first pair split off, and its length. -/
theorem encRunPeelsChunks : Obligations.EncRunPeelsChunks :=
  fun _ _ => ⟨encRun_zero, encRun_length, encRun_peel⟩

/-- Settles O35: by strong induction on the length, whose first count is `min(L, 255)`. -/
theorem runCountsSumToTheRun : Obligations.RunCountsSumToTheRun := by
  intro len v
  induction len using Nat.strong_induction_on with
  | _ len ih =>
    rcases Nat.eq_zero_or_pos len with rfl | hpos
    · exact ⟨[], rfl, nofun, rfl⟩
    obtain ⟨counts, hbytes, hbound, hsum⟩ := ih (len - min len 255) (by omega)
    refine ⟨min len 255 :: counts, ?_, List.forall_mem_cons.mpr ⟨by omega, hbound⟩, ?_⟩
    · rw [encRun_peel hpos, hbytes, List.flatMap_cons]; rfl
    · rw [List.sum_cons, hsum]; omega

end Sys2Proof.Machine
end

section
/-! PROOFS of the family 43_literal_packer.md (O19, O20, O31, O32, O33, O36). U_ABS and U_SHORT are packing steps
(`State.pack`) in LIT with one frame. The look-aheads meet in `bytesBeforeRun`: hopping takes a whole run at once, and
the byte scan keeps the run it stands in as `rc` copies of the byte before it. -/

namespace Sys2Proof.Machine

variable {s : State} {i : Instr} {bytes row : List Byte} {v : Byte} {c fuel k m rc : Nat} {n : Word} {ph : Phase}

/-! ### U_ABS and U_SHORT -/

theorem exec_uAbs (hp : s.phase = .lit) (h3 : 3 ≤ s.n.toNat) :
    exec .uAbs s = .next (s.absStep (min s.n.toNat 255)) :=
  State.whenSelected_eq_next.mpr ⟨by simp [hp, h3], rfl⟩

theorem exec_uShort (hp : s.phase = .lit) (h2 : s.n.toNat ≤ 2) : exec .uShort s = .next s.shortStep :=
  State.whenSelected_eq_next.mpr ⟨by simp [hp, h2], rfl⟩

/-- The frame of a packing step of a literal stretch: RL and VAL are dead in LIT and stay (R166, R167). -/
theorem State.pack_lit_frame (hp : s.phase = .lit) (hrow : s.SameRow (s.pack bytes c s.rl n ph))
    (hi : i ∈ microOperations) (hne : i ≠ .uFin) (h : exec i s = .next (s.pack bytes c s.rl n ph)) :
    let t := s.pack bytes c s.rl n ph
    s.SameConfig t ∧ s.SameResult t ∧ s.SameOutside t ∧ t.pix = s.pix ∧ t.status = s.status ∧ t.settled = s.settled ∧
      t.stride = s.stride ∧ t.rowoff = s.rowoff ∧ t.rl = s.rl ∧ t.val = s.val := by
  obtain ⟨hconfig, houtside, hpix, herr⟩ := micro_frame hi h
  obtain ⟨henc, hsettled⟩ := micro_result hi h hne
  refine ⟨hconfig, ⟨henc, herr⟩, houtside, hpix,
    State.status_eq_of_busy (micro_busy hi h) (micro_stays_busy hi h hne) herr, hsettled, hrow.stride, hrow.rowoff,
    ?rl, ?val⟩
  case rl => simp [State.pack, hp]
  case val => simp [State.pack, hp]

/-- The token of a chunk of `c` source bytes: header, payload and the pad of an odd count (R163, R166). -/
theorem absBytes_source : absBytes (s.source c) =
    [0x00, BitVec.ofNat 8 c] ++ s.pix.readBytes (s.rowoff.toNat + s.p.toNat) c ++
      (if c % 2 = 1 then [0x00] else []) := by
  rw [absBytes, State.source, Memory.readBytes_length]; rfl

theorem absBytes_source_length : (absBytes (s.source c)).length = 2 + c + c % 2 := by
  rw [absBytes_length, State.source, Memory.readBytes_length]

/-- A stretch longer than one chunk goes on with 255 bytes less (R166). -/
theorem State.absStep_goes_on (h : 255 < s.n.toNat) :
    (s.absStep (min s.n.toNat 255)).phase = .lit ∧ (s.absStep (min s.n.toNat 255)).n.toNat = s.n.toNat - 255 := by
  have hfits := s.n.isLt
  have hphase : (if s.n.toNat - 255 = 0 then Phase.scan else Phase.lit) = .lit := if_neg (by omega)
  rw [Nat.min_eq_right h.le, State.absStep_eq_pack, State.pack_phase, State.pack_n hphase]
  exact ⟨hphase, word_ofNat_toNat (by omega)⟩

/-- The first byte of a stretch of 2 leaves a stretch of 1 (R167). -/
theorem State.shortStep_goes_on (h : s.n.toNat = 2) : s.shortStep.phase = .lit ∧ s.shortStep.n.toNat = 1 := by
  have hphase : (if s.nLess1 = 0 then Phase.scan else Phase.lit) = .lit := State.shortStep_phase_of_two h
  exact ⟨hphase, congrArg BitVec.toNat ((State.pack_n hphase).trans (State.nLess1_eq h))⟩

/-- Settles O19: a packing step of `min(N, 255)` bytes, whose token is the absolute token of the source bytes. -/
theorem uAbsFollowsItsPseudocode : Obligations.UAbsFollowsItsPseudocode := by
  intro s hp h3 hwf c hout hfit
  have h := exec_uAbs hp h3
  have hpacks : s.Packs (s.absStep c) c (absBytes (s.source c)) :=
    State.pack_packs_of_lt (by rw [hp]; rfl) (by split <;> rfl) hfit (by rwa [absBytes_source_length])
  have houtptr := hpacks.outptr
  rw [absBytes_source_length] at houtptr
  refine ⟨_, h, ?stored, houtptr, hpacks.p, fun hspent => ?spent, State.absStep_goes_on,
    State.pack_lit_frame hp hpacks.toSameRow (by decide) (by decide) h⟩
  case stored => rw [← absBytes_source, hpacks.out]; exact Memory.stored_writeBytes hwf
  case spent => exact State.absStep_phase.trans (if_neg (by omega))

/-- Settles O20: a packing step of one byte, whose token is `01 b`. -/
theorem uShortFollowsItsPseudocode : Obligations.UShortFollowsItsPseudocode := by
  intro s hp hn hwf hout hfit
  have h := exec_uShort hp (by omega)
  have hpacks : s.Packs s.shortStep 1 (repeatBytes 1 (s.pix.read (s.rowoff.toNat + s.p.toNat))) :=
    State.pack_packs_of_lt (by rw [hp]; rfl) (by split <;> rfl) hfit hout
  refine ⟨_, h, ?stored, hpacks.outptr, hpacks.p, State.shortStep_phase_of_one, State.shortStep_goes_on,
    State.pack_lit_frame hp hpacks.toSameRow (by decide) (by decide) h⟩
  case stored => rw [hpacks.out]; exact Memory.stored_writeBytes hwf

/-! ### LitLen -/

/-- Settles O31: what `litLen` answers of what is left of the row, read at the row's own positions. -/
theorem litLenIsTheDistanceToTheRun : Obligations.LitLenIsTheDistanceToTheRun := by
  intro row p hp hrun
  have hpos := litLen_pos (row := row.drop p) (by simpa using hp)
  have hle := litLen_le (row := row.drop p)
  rw [List.length_drop] at hle
  refine ⟨by omega, by omega, fun q hpq hq => ?before, fun hr => ?stop⟩
  case before =>
    have hbefore := litLen_before (i := q - p) hrun (by omega)
    rwa [List.drop_drop, Nat.add_sub_of_le hpq.le] at hbefore
  case stop =>
    rw [← List.drop_drop]
    exact litLen_stop (by rw [List.length_drop]; omega)

/-- Settles O33: three equal bytes would be a run of 3, and none starts inside the stretch. -/
theorem literalStretchHoldsNoThreeEqual : Obligations.LiteralStretchHoldsNoThreeEqual := by
  intro row hrun
  refine ⟨fun i hi ⟨h01, h12⟩ => ?_, litLen_stop⟩
  have hle := litLen_le (row := row)
  have hshort := litLen_before (i := i) hrun (by omega)
  have hlong : 3 ≤ runLen (row.drop i) := by
    refine le_runLen_of_forall_getElem? (by rw [List.length_drop]; omega) fun j hj => ?_
    rw [List.getElem?_drop, List.getElem?_drop]
    match j, hj with
    | 0, _ => rfl
    | 1, _ => exact h01.symm
    | 2, _ => exact (h01.trans h12).symm
  omega

/-! ### Hopping from run to run -/

theorem bytesBeforeRun_of_run (h : 3 ≤ runLen row) : bytesBeforeRun row = 0 := by
  cases row with
  | nil => rfl
  | cons v row => rw [bytesBeforeRun, if_pos h]

theorem litLen_eq_bytesBeforeRun (h : runLen row < 3) : litLen row = bytesBeforeRun row := by
  cases row with
  | nil => rfl
  | cons v row => rw [litLen, bytesBeforeRun, if_neg (by omega)]

/-- No run of 3 or more starts inside a run shorter than 3, so the whole run can be skipped (R160). -/
theorem bytesBeforeRun_skip_run (h : runLen row < 3) :
    bytesBeforeRun row = runLen row + bytesBeforeRun (row.drop (runLen row)) := by
  induction row with
  | nil => rfl
  | cons v row ih =>
    rw [← litLen_eq_bytesBeforeRun h, litLen]
    match row, ih with
    | [], _ => rfl
    | b :: row, ih =>
      by_cases hb : b = v
      · subst hb
        rw [runLen_cons_self] at h ⊢
        rw [ih (by omega), List.drop_succ_cons]
        omega
      · have hone : runLen (v :: b :: row) = 1 := by rw [runLen, leadCount, if_neg hb]
        rw [hone, List.drop_succ_cons, List.drop_zero, Nat.add_comm]

theorem litLenHop_eq (h : row.length ≤ fuel) : litLenHop fuel k row = k + bytesBeforeRun row := by
  induction fuel generalizing k row with
  | zero => rw [List.length_eq_zero_iff.mp (Nat.le_zero.mp h)]; rfl
  | succ fuel ih =>
    match row with
    | [] => rfl
    | v :: row =>
      rw [litLenHop]
      split
      · next hrun => rw [bytesBeforeRun_of_run hrun, Nat.add_zero]
      · next hrun =>
        have hpos := runLen_pos (row := v :: row) (List.cons_ne_nil _ _)
        rw [ih (by rw [List.length_drop]; omega), bytesBeforeRun_skip_run (row := v :: row) (by omega), Nat.add_assoc]

theorem litLenHopping_eq (h : runLen row < 3) : litLenHopping row = litLen row := by
  rw [litLenHopping, litLenHop_eq (by rw [List.length_drop]; omega), litLen_eq_bytesBeforeRun h,
    bytesBeforeRun_skip_run h]

/-! ### The byte scan -/

theorem leadCount_replicate_append : leadCount v (List.replicate k v ++ row) = k + leadCount v row := by
  induction k with
  | zero => simp
  | succ k ih => rw [List.replicate_succ, List.cons_append, leadCount, if_pos rfl, ih]; omega

theorem runLen_replicate_append (h : 1 ≤ rc) : runLen (List.replicate rc v ++ row) = rc + leadCount v row := by
  obtain ⟨k, rfl⟩ := Nat.exists_eq_add_of_le' h
  rw [List.replicate_succ, List.cons_append, runLen, leadCount_replicate_append, Nat.add_right_comm]

/-- One or two equal bytes that the next byte does not prolong hold no run of 3 or more. -/
theorem bytesBeforeRun_replicate_append (h1 : 1 ≤ rc) (h3 : rc < 3) (hstop : leadCount v row = 0) :
    bytesBeforeRun (List.replicate rc v ++ row) = rc + bytesBeforeRun row := by
  have hrun : runLen (List.replicate rc v ++ row) = rc := by rw [runLen_replicate_append h1, hstop, Nat.add_zero]
  rw [bytesBeforeRun_skip_run (by omega), hrun, List.drop_left' List.length_replicate]

/-- The scan of Pseudocode R161 with `m + rc` bytes behind it, the last `rc` of them equal to the byte before it: the
back-off by 2 at the third equal byte leads back to the start of that run. -/
theorem byteScan_eq (h1 : 1 ≤ rc) (h3 : rc < 3) :
    byteScan v rc (m + rc) row = m + bytesBeforeRun (List.replicate rc v ++ row) := by
  induction row generalizing v rc m with
  | nil => rw [byteScan, bytesBeforeRun_replicate_append h1 h3 rfl]; rfl
  | cons b row ih =>
    rw [byteScan]
    by_cases hb : b = v
    · subst hb
      rw [if_pos rfl]
      split
      · next hthird =>
        rw [bytesBeforeRun_of_run (by rw [runLen_replicate_append h1, leadCount, if_pos rfl]; omega)]
        omega
      · next hthird =>
        rw [Nat.add_assoc, ih (by omega) (by omega), List.replicate_succ', List.append_assoc, List.singleton_append]
    · rw [if_neg hb, if_neg (by decide), ih le_rfl (by decide),
        bytesBeforeRun_replicate_append h1 h3 (by rw [leadCount, if_neg hb]), Nat.add_assoc]
      rfl

theorem litLenBytewise_eq (h : runLen row < 3) : litLenBytewise row = litLen row := by
  cases row with
  | nil => rfl
  | cons v row =>
    rw [litLen_eq_bytesBeforeRun h, litLenBytewise]
    exact (byteScan_eq (m := 0) le_rfl (by decide)).trans (Nat.zero_add _)

/-- Settles O32: hopping and the byte scan each compute LitLen. -/
theorem theThreeLookAheadsAgree : Obligations.TheThreeLookAheadsAgree :=
  fun _ _ _ h => ⟨litLenHopping_eq h, litLenBytewise_eq h⟩

/-! ### EncLit -/

/-- A short literal costs two bytes for each of its bytes (R165). -/
theorem encLit_length_of_short (h : bytes.length < 3) : (encLit bytes).length = 2 * bytes.length := by
  rw [encLit, if_pos h, shortLit_length]

/-- Settles O36: EncLit with its first chunk or its first short byte split off, and its lengths. -/
theorem encLitPeelsChunks : Obligations.EncLitPeelsChunks := by
  refine fun bytes => ⟨encLit_peel, fun v row hcons h => ?short, encLit_nil, encLit_length_of_short,
    fun _ => encLit_length⟩
  case short => rw [hcons] at h ⊢; exact encLit_cons h

end Sys2Proof.Machine
end

section
/-! PROOFS of the family 44_host_commands.md (O12, O13, O14, O52, O53): what each host command does with BUSY = 0 and with
BUSY = 1, and the host's own accesses to PIX and OUT. -/

namespace Sys2Proof.Machine

variable {s : State}

/-! ### H_START -/

theorem exec_hStart_of_busy {ignored : BitVec 31} (hb : s.busy = true) : exec (.hStart ignored) s = .next s :=
  congrArg Host.Outcome.next (if_pos hb)

theorem exec_hStart_of_idle {ignored : BitVec 31} (hb : s.busy = false) : exec (.hStart ignored) s = .next s.startStep :=
  congrArg Host.Outcome.next (if_neg (Bool.eq_false_iff.mp hb))

/-- A move of PHASE from BUSY = 0 ends no register's life: it draws on the free values at most (R30). -/
theorem State.toPhase_of_idle {ph : Phase} (h : s.phase.busy = false) :
    s.toPhase ph = { s with phase := ph, fresh := s.fresh + 11 } := by
  have hrun : (s.phase == Phase.run) = false := by revert h; cases s.phase <;> decide
  have hlit : (s.phase == Phase.lit) = false := by revert h; cases s.phase <;> decide
  simp only [State.toPhase, h, hrun, hlit, Bool.false_and, Bool.false_eq_true, if_false]

/-- An accepted H_START writes the result registers, PHASE and the four registers of the rows (R180). -/
theorem State.launch_of_idle (hb : s.busy = false) : s.clearResult.launch =
    { s with
      encSize := 0, errCode := 0, phase := .scan, stride := BitVec.ofNat 32 (strideOf s.width.toNat),
      rowoff := 0, p := 0, outptr := 0, fresh := s.fresh + 11 } :=
  State.toPhase_of_idle (s := { s.clearResult with
    stride := BitVec.ofNat 32 (strideOf s.width.toNat), rowoff := 0, p := 0, outptr := 0 }) hb

/-- An H_START that is not ignored clears ENC_SIZE and leaves what it has no business with alone. -/
theorem State.startStep_frame (hb : s.busy = false) : s.SameConfig s.startStep ∧ s.SameOutside s.startStep ∧
    s.startStep.pix = s.pix ∧ s.startStep.out = s.out ∧ s.startStep.encSize = 0 ∧ s.startStep.rl = s.rl ∧
    s.startStep.val = s.val ∧ s.startStep.n = s.n ∧ s.startStep.settled = s.settled := by
  cases hcheck : checkLaunch s.width.toNat s.imageSize.toNat s.outCap.toNat with
  | some code =>
    rw [State.startStep_of_error hb hcheck]
    exact ⟨⟨rfl, rfl, rfl⟩, ⟨rfl, rfl, rfl⟩, rfl, rfl, rfl, rfl, rfl, rfl, rfl⟩
  | none =>
    rw [State.startStep_of_none hcheck, State.launch_of_idle hb]
    exact ⟨⟨rfl, rfl, rfl⟩, ⟨rfl, rfl, rfl⟩, rfl, rfl, rfl, rfl, rfl, rfl, rfl⟩

/-- The launch ends at once in ERROR with `code`, and the registers of the rows are as they were (R180, R207). -/
def State.RefusedWith (s t : State) (code : BitVec 4) : Prop :=
  t.phase = .error ∧ t.errCode = code ∧ t.status.toNat = code.toNat * 16 + 4 ∧
    t.stride = s.stride ∧ t.rowoff = s.rowoff ∧ t.p = s.p ∧ t.outptr = s.outptr

theorem State.startStep_refusedWith {code : BitVec 4} (hb : s.busy = false)
    (h : checkLaunch s.width.toNat s.imageSize.toNat s.outCap.toNat = some code) : s.RefusedWith s.startStep code := by
  rw [State.startStep_of_error hb h]
  exact ⟨rfl, rfl, State.status_toNat, rfl, rfl, rfl, rfl⟩

/-- The launch is under way at the first row, with a clean STATUS (R180). -/
def State.Launched (s t : State) : Prop :=
  t.phase = .scan ∧ t.errCode = 0 ∧ t.status = 1 ∧ t.stride.toNat = strideOf s.width.toNat ∧ t.rowoff = 0 ∧ t.p = 0 ∧
    t.outptr = 0

theorem State.startStep_launched (hb : s.busy = false)
    (h : checkLaunch s.width.toNat s.imageSize.toNat s.outCap.toNat = none) : s.Launched s.startStep := by
  have hstride := word_ofNat_toNat (strideOf_lt_of_checkLaunch h s.imageSize.isLt)
  rw [State.startStep_of_none h, State.launch_of_idle hb]
  exact ⟨rfl, rfl, State.status_of rfl rfl, hstride, rfl, rfl, rfl⟩

/-- `checkLaunch` is the chain of checks in the order of R208: the code of the first that fails, or acceptance. -/
theorem ite_of_checkLaunch {w size cap : Nat} {refused : BitVec 4 → Prop} {accepted : Prop}
    (hrefused : ∀ code, checkLaunch w size cap = some code → refused code)
    (haccepted : checkLaunch w size cap = none → accepted) :
    if w = 0 then refused 1
    else if size = 0 then refused 2
    else if size % strideOf w ≠ 0 then refused 3
    else if cap < 2 * size then refused 4
    else accepted := by
  unfold checkLaunch at hrefused haccepted
  split_ifs at hrefused haccepted ⊢
  · exact hrefused 1 rfl
  · exact hrefused 2 rfl
  · exact hrefused 3 rfl
  · exact hrefused 4 rfl
  · exact haccepted rfl

/-- Settles O12: `startStep` with its frame, and its two ends by the chain of checks. -/
theorem hStartFollowsItsPseudocode : Obligations.HStartFollowsItsPseudocode := by
  refine fun s ignored => ⟨exec_hStart_of_busy, fun hb => ?idle⟩
  case idle =>
    obtain ⟨hconfig, houtside, hpix, hout, hsize, hrl, hval, hn, hsettled⟩ := State.startStep_frame hb
    exact ⟨_, exec_hStart_of_idle hb, hconfig, houtside, hpix, hout, hsize, hrl, hval, hn, hsettled,
      ite_of_checkLaunch (refused := s.RefusedWith s.startStep) (fun _ => State.startStep_refusedWith hb)
        (State.startStep_launched hb)⟩

/-! ### H_WRITE_CFG -/

variable {reg : CfgReg} {data : Word}

theorem exec_hWriteCfg_of_busy (hb : s.busy = true) : exec (.hWriteCfg reg data) s = .next s :=
  congrArg Host.Outcome.next (if_pos hb)

theorem exec_hWriteCfg_of_idle (hb : s.busy = false) : exec (.hWriteCfg reg data) s = .next (s.setConfig reg data) :=
  congrArg Host.Outcome.next (if_neg (Bool.eq_false_iff.mp hb))

/-- A write that selects no command decodes to none (R96). -/
theorem decode_command_noCommand {number : BitVec 3}
    (h : (number = 0 ∧ data.extractLsb' 0 1 = 0) ∨ number = 1 ∨ number = 5 ∨ number = 6 ∨ number = 7) :
    decode (.command (commandWord 1 number data)) = .error .noCommand := by
  rw [decode, decodeCommand_noCommand h]; rfl

/-- Settles O13: the three words by the register number they hold, and the write by BUSY. -/
theorem hWriteCfgFollowsItsPseudocode : Obligations.HWriteCfgFollowsItsPseudocode :=
  fun _ _ => ⟨decode_command (decodeCommand_hWriteCfg (reg := .width)),
    decode_command (decodeCommand_hWriteCfg (reg := .imageSize)),
    decode_command (decodeCommand_hWriteCfg (reg := .outCap)),
    fun hb => ⟨exec_hWriteCfg_of_idle hb, exec_hWriteCfg_of_idle hb, exec_hWriteCfg_of_idle hb⟩,
    fun hb _ => exec_hWriteCfg_of_busy hb, fun _ => decode_command_noCommand⟩

/-! ### H_READ -/

theorem exec_hRead {number : BitVec 3} : exec (.hRead number) s = .next { s with rdata := s.register number } := rfl

/-- The STATUS word with each flag written out by PHASE (R22, R33). -/
theorem State.status_eq_ite : s.status =
    BitVec.ofNat 32 (s.errCode.toNat * 16 + (if s.phase = .error then 4 else 0) + (if s.phase = .done then 2 else 0) +
      (if s.phase = .scan ∨ s.phase = .run ∨ s.phase = .lit ∨ s.phase = .fin then 1 else 0)) := by
  unfold State.status
  cases s.phase <;> rfl

/-- Settles O14: `register` is the table, where CTRL (number 0) is one of the numbers that read 0. -/
theorem hReadReturnsTheTable : Obligations.HReadReturnsTheTable := by
  intro s k
  rw [exec_hRead, ← State.status_eq_ite]
  by_cases hk : k = 0
  · subst hk; rfl
  · rw [if_neg hk]; rfl

/-! ### The host's accesses to the buffers -/

variable {index : Word} {value : Byte}

/-- What the host's accesses write is no register of the block (Table R189). -/
theorem State.sameRegisters_outside (pix out : Memory) (settled : Option (List (Nat × Nat))) (fresh : Nat) (rdata : Word)
    (turns : List Turn) : s.SameRegisters
      { s with pix := pix, out := out, settled := settled, fresh := fresh, rdata := rdata, turns := turns } :=
  ⟨⟨rfl, rfl, rfl⟩, ⟨rfl, rfl⟩, rfl, rfl, rfl, rfl, rfl, rfl, rfl, rfl⟩

theorem Memory.stored_write {m : Memory} {a : Nat} {v : Byte} (h : m.wf = true) : m.Stored (m.write a v) a [v] :=
  Memory.stored_writeBytes (bytes := [v]) h

theorem hostStorePix_of_busy (hb : s.busy = true) : hostStorePix index value s = .refused .pixWrittenWhileBusy :=
  if_pos hb

theorem hostStorePix_of_idle (hb : s.busy = false) :
    hostStorePix index value s = .next { s with pix := s.pix.write index.toNat value } :=
  if_neg (Bool.eq_false_iff.mp hb)

theorem hostStoreOut_of_busy (hb : s.busy = true) : hostStoreOut index value s = .refused .outWrittenWhileBusy :=
  if_pos hb

theorem hostStoreOut_of_idle (hb : s.busy = false) :
    hostStoreOut index value s = .next ({ s with out := s.out.write index.toNat value }.settle index.toNat 1) :=
  if_neg (Bool.eq_false_iff.mp hb)

/-- A byte the host has stored is one it can rely on. -/
theorem State.outKnown_settle_one {first a : Nat} (hb : s.busy = false) :
    (s.settle first 1).outKnown a = true ↔ a = first ∨ s.outKnown a = true := by
  have hspan : (first ≤ a ∧ a < first + 1) ↔ a = first := by omega
  rw [State.outKnown_settle hb, hspan]

/-- What the host reads of a byte of OUT it cannot rely on: a free value, whatever the index and the byte (U4, U7). -/
def State.unknownByte (s : State) : Word := (Config.freeByte (s.fresh + 9)).setWidth 32

/-- What the host reads at index `a` of OUT (R61, R238). -/
def State.hostView (s : State) (a : Nat) : Word :=
  (if s.outKnown a then s.out.read a else Config.freeByte (s.fresh + 9)).setWidth 32

theorem State.hostView_of_known {a : Nat} (h : s.outKnown a = true) : s.hostView a = (s.out.read a).setWidth 32 := by
  rw [State.hostView, if_pos h]

theorem State.hostView_of_unknown {a : Nat} (h : s.outKnown a = false) : s.hostView a = s.unknownByte := by
  rw [State.hostView, h]; rfl

theorem step_loadOut {out : Memory} {turns : List Turn} :
    step { s with out := out, turns := { reset := false, move := .loadOut index } :: turns } =
      .next { s with
        out := out, turns := turns, rdata := State.hostView { s with out := out } index.toNat, fresh := s.fresh + 11 } :=
  step_of_move (s := { s with out := out })

/-- Settles O52: each access is its turn's move, and what it may do is read off BUSY and the host's view of OUT. -/
theorem hostAccessesFollowTheirDuties : Obligations.HostAccessesFollowTheirDuties := by
  intro s turns value
  refine ⟨fun hb index => ⟨?refusedPix, ?refusedOut⟩, fun hb hwf index => ⟨?storePix, ?storeOut⟩, fun index => ?loadOut,
    ⟨s.unknownByte, fun index out h => ?unknown⟩, fun index => ?loadPix⟩
  case refusedPix => exact step_of_move.trans (hostStorePix_of_busy hb)
  case refusedOut => exact step_of_move.trans (hostStoreOut_of_busy hb)
  case storePix =>
    exact ⟨_, step_of_move.trans (hostStorePix_of_idle hb), Memory.stored_write hwf.1, rfl, rfl,
      State.sameRegisters_outside _ _ _ _ _ _⟩
  case storeOut =>
    exact ⟨_, step_of_move.trans (hostStoreOut_of_idle hb), Memory.stored_write hwf.2, rfl,
      fun _ => State.outKnown_settle_one hb, State.sameRegisters_outside _ _ _ _ _ _⟩
  case loadOut =>
    exact ⟨_, step_loadOut (out := s.out), State.hostView_of_known, rfl, rfl, rfl,
      State.sameRegisters_outside _ _ _ _ _ _⟩
  case unknown => exact ⟨_, step_loadOut, State.hostView_of_unknown (s := { s with out := out }) h⟩
  case loadPix => exact ⟨_, step_of_move, rfl, rfl, rfl, rfl, State.sameRegisters_outside _ _ _ _ _ _⟩

/-- Settles O53: after the reset no byte of OUT is known, so a read of any index draws the same free value. -/
theorem resetDuringALaunchLeavesOutUndefined : Obligations.ResetDuringALaunchLeavesOutUndefined := by
  intro s hb
  have hunknown : ∀ a, s.resetStep.outKnown a = false := fun _ => State.outKnown_resetStep hb
  refine ⟨s.resetStep, s.resetStep.unknownByte, rfl, rfl, rfl, State.register_eq_zero rfl rfl rfl rfl rfl rfl, rfl,
    hunknown, fun index out turns => ?read⟩
  case read => exact ⟨_, step_loadOut, State.hostView_of_unknown (s := { s.resetStep with out := out }) (hunknown index.toNat)⟩

end Sys2Proof.Machine
end

section
/-! PROOF of the family 60_exceptions.md (O48): there is no other fault (R206). While BUSY = 1 a row of Table R97 holds and
U_FIN finds its marker; a register access and a reset answer a next state from anywhere. -/

namespace Sys2Proof.Machine

variable {s : State} {i : Instr} {word : BitVec 36}

/-! ### The core -/

/-- In FIN every row of the image has cost a token and a marker, so U_FIN's index OUTPTR − 2 exists (R248). -/
theorem State.LaunchHolds.four_le_outptr (h : s.LaunchHolds) (hp : s.phase = .fin) : 4 ≤ s.outptr.toNat := by
  obtain ⟨hr, hs⟩ := h
  have hrows := (rows_of_checkLaunch hr.checkLaunch_eq).1
  have hstride := four_le_strideOf (Nat.ne_of_gt hr.width_pos)
  rw [← hr.stride_eq] at hrows hstride
  have hlength : s.outptr.toNat =
      (encRows s.pix s.stride.toNat 0 (s.imageSize.toNat / s.stride.toNat)).length := by
    rw [← hs.all_written hp, Memory.readBytes_length]
  calc 4 ≤ 4 * (s.imageSize.toNat / s.stride.toNat) := Nat.le_mul_of_pos_right 4 hrows
    _ ≤ s.outptr.toNat := hlength ▸ le_encRows_length (by omega)

/-- The micro-operation whose row holds answers a next state: under R37 not even U_FIN faults. -/
theorem State.RowHolds.exec_next_of_launchHolds (h : s.RowHolds i) (hl : s.LaunchHolds) : ∃ t, exec i s = .next t := by
  by_cases hi : i = .uFin
  · subst hi
    have hfour := hl.four_le_outptr h
    exact ⟨_, exec_uFin h (by omega)⟩
  · exact h.exec_next hi

/-- The core's move never stops the machine: with BUSY = 0 the core is quiescent, with BUSY = 1 a row holds. -/
theorem coreMove_next (h : s.LaunchOk) : ∃ t, coreMove s = .next t := by
  cases hb : s.busy with
  | false => exact ⟨s, coreMove_quiescent hb⟩
  | true =>
    have hl : s.LaunchHolds := h hb
    obtain ⟨i, hrow⟩ := State.exists_rowHolds hb fun hp => by
      rw [← State.activationEnd_scan hp]; exact hl.1.end_inside
    rw [coreMove_of_decode hrow.decode_eq]
    exact hrow.exec_next_of_launchHolds hl

/-! ### The host commands -/

/-- A command word selects a host command (R96), which answers a next state from every state. -/
theorem exec_next_of_decodeCommand (h : decodeCommand word = .ok i) : ∃ t, exec i s = .next t := by
  simp only [decodeCommand] at h
  split_ifs at h <;> cases h <;> exact ⟨_, rfl⟩

/-- A register access never stops the machine, whether it selects a command or not. -/
theorem commandMove_next : ∃ t, commandMove word s = .next t := by
  cases h : decodeCommand word with
  | ok i =>
    rw [commandMove_of_decode (decode_command h)]
    exact exec_next_of_decodeCommand h
  | error e =>
    have hd : decode (.command word) = .error e := by rw [decode, h]; rfl
    exact ⟨s, commandMove_of_error hd⟩

/-! ### Every turn of the block -/

/-- An asserted reset input comes first (R184); else the turn is the core's move or a register access. Spending a turn
does not touch the invariant. -/
theorem State.LaunchOk.step_next {turns : List Turn} (h : s.LaunchOk)
    (hturn : State.BlockTurn { s with turns := turns }) : ∃ t, step { s with turns := turns } = .next t := by
  have hcore : ∀ left, ∃ t, coreMove { s with turns := left } = .next t := fun left =>
    coreMove_next (h.outside left s.rdata s.fresh s.reader)
  match turns, hturn with
  | [], _ => exact hcore []
  | { reset := true, .. } :: _, _ => exact ⟨_, step_of_reset⟩
  | { reset := false, .. } :: left, .inr (.inl rfl) => exact hcore left
  | { reset := false, .. } :: _, .inr (.inr ⟨_, rfl⟩) => exact commandMove_next

/-- Settles O48: the state's own turns are the ones it spends. -/
theorem blockNeverStops : Obligations.BlockNeverStops := fun _ hok hturn => hok.step_next hturn

end Sys2Proof.Machine
end

section
/-! The size bound of one row (R247, clause iii). -/

namespace Sys2Proof.Machine

/-- Settles O38: of the length's divisibility only its consequence counts, that a nonempty row has 4 bytes or more. -/
theorem rowWithMarkerCostsAtMostTwice : Obligations.RowWithMarkerCostsAtMostTwice := by
  intro row hne hmod
  have hpos := List.length_pos_of_ne_nil hne
  have hfour : 4 ≤ row.length := Nat.le_of_dvd hpos (Nat.dvd_of_mod_eq_zero hmod)
  exact encRow_length_add_two_le hfour

end Sys2Proof.Machine
end
